-- ==== Sys2Proof/Word.lean ====
section
/-! DEFINITION. The machine word: one unsigned byte (00_scope.md rules R5 and R8), and the index of a register. -/

namespace Sys2Proof

/-- An unsigned 8-bit value: a register, a memory cell, the program counter, an instruction byte (R5, R8). -/
abbrev Byte := BitVec 8

/-- An index into the register file, 0 to 7 (R11). -/
abbrev RegIdx := Fin 8

end Sys2Proof
end

