-- ==== Sys2Proof/Config.lean ====
section
/-! DEFINITION. What an implementation fixes: the sizes the spec states (00_scope.md rule R5) and the shape of the opcode
parameters it leaves open (00_scope.md rule R6). Their default values stand in Decode.lean. The machine has no free value:
the spec leaves no result of a running instruction undefined (93_implementation_defined.md Part 1). -/

namespace Sys2Proof

/-- MEM_SIZE, the number of memory cells (R5). -/
def memSize : Nat := 256

/-- The six opcode bytes the source does not give; "The model takes the parameters as arguments of the machine" (R6). -/
structure OpcodeParams where
  /-- OPC_ADD -/
  add : Byte
  /-- OPC_MUL -/
  mul : Byte
  /-- OPC_PUSH -/
  push : Byte
  /-- OPC_POP -/
  pop : Byte
  /-- OPC_CALL -/
  call : Byte
  /-- OPC_RET -/
  ret : Byte
  deriving DecidableEq, Repr

end Sys2Proof
end

