-- ==== Sys2Proof/Syntax.lean ====
section
/-! DEFINITION. The nine instructions of spec/opcode_table.json (00_scope.md rule R1, 30_encoding.md rules R52 and R61),
each with its operand bytes as they stand in memory, and why a byte sequence may be no instruction. -/

namespace Sys2Proof

/-- One constructor per row of the opcode table. An operand is the WHOLE operand byte (R53): a register operand above 7 is
still an instruction of the row, whose execution raises RegisterIndexOutOfRange (R73, R144). -/
inductive Instr where
  /-- HLT, format F0 (R100). -/
  | hlt
  /-- LDI reg, imm, format F2-RI (R101). -/
  | ldi (reg imm : Byte)
  /-- PRN reg, format F1 (R102). -/
  | prn (reg : Byte)
  /-- ADD regA, regB, format F2-RR (R110). -/
  | add (regA regB : Byte)
  /-- MUL regA, regB, format F2-RR (R111). -/
  | mul (regA regB : Byte)
  /-- PUSH reg, format F1 (R120). -/
  | push (reg : Byte)
  /-- POP reg, format F1 (R121). -/
  | pop (reg : Byte)
  /-- CALL reg, format F1 (R130). -/
  | call (reg : Byte)
  /-- RET, format F0 (R131). -/
  | ret
  deriving DecidableEq, Repr

/-- Why bytes are no instruction. -/
inductive DecodeError where
  /-- The opcode byte is none of the nine (R56, R72). -/
  | unknownOpcode (opcode : Byte)
  /-- A byte sequence ends before the instruction does. The core's own fetch always has three bytes (R71). -/
  | truncated
  deriving DecidableEq, Repr

end Sys2Proof
end

