-- ==== Sys2Proof/Decode.lean ====
section
/-! DEFINITION. The opcode map, the decoder and the encoder (30_encoding.md rules R50 to R59, 40_core_units.md rule R72). -/

namespace Sys2Proof

/-- Opcode byte of HLT, from the source's worked example (R5, R54). -/
def opcHlt : Byte := 0x01
/-- Opcode byte of LDI, from the source's worked example (R5, R54). -/
def opcLdi : Byte := 0x82
/-- Opcode byte of PRN, from the source's worked example (R5, R54). -/
def opcPrn : Byte := 0x47

/-- The defaults of the six opcode parameters (R6, R54). PRESUMED: general knowledge of the published LS-8, not the
source (93_implementation_defined.md G1; log 1, unsafe). -/
def defaultOpcodes : OpcodeParams :=
  { add := 0xA0, mul := 0xA2, push := 0x45, pop := 0x46, call := 0x50, ret := 0x11 }

/-- The nine recognised opcode bytes (R54). -/
def OpcodeParams.recognised (p : OpcodeParams) : List Byte :=
  [opcHlt, opcLdi, opcPrn, p.add, p.mul, p.push, p.pop, p.call, p.ret]

/-- `nops(op) = op[7:6]`, the number of operand bytes (R51). For bits 7:6 = 11 it is 3 and never used (R57; log 18). -/
def nops (op : Byte) : Nat := (op >>> 6).toNat

/-- The constraints of R6: the nine opcode bytes pairwise different, and bits 7:6 of each parameter the operand count.
DESIGN CHOICE, safe (log 21): nothing more is asked, so OPC_RET = 0x00 is admitted, though R45 and R56 call 0x00 not
recognised. Under the defaults, which `step` takes, 0x00 is unknown as those rules say. -/
abbrev OpcodeParams.Valid (p : OpcodeParams) : Prop :=
  p.recognised.Nodup ∧ nops p.add = 2 ∧ nops p.mul = 2 ∧ nops p.push = 1 ∧ nops p.pop = 1 ∧ nops p.call = 1 ∧ nops p.ret = 0

/-- `decode(ir, pc)` of R72 on the three fetched bytes: the instruction is selected by all eight bits of the opcode byte
`ir` alone (R55), the operands are the whole operand bytes (R52, R53), and unused operand bytes are ignored (R59). -/
def decode (p : OpcodeParams) (ir opa opb : Byte) : Except DecodeError Instr :=
  if ir = opcHlt then .ok .hlt
  else if ir = opcLdi then .ok (.ldi opa opb)
  else if ir = opcPrn then .ok (.prn opa)
  else if ir = p.add then .ok (.add opa opb)
  else if ir = p.mul then .ok (.mul opa opb)
  else if ir = p.push then .ok (.push opa)
  else if ir = p.pop then .ok (.pop opa)
  else if ir = p.call then .ok (.call opa)
  else if ir = p.ret then .ok .ret
  else .error (.unknownOpcode ir)

/-- Decoding from a byte sequence: the instruction and the bytes after it, the length derived from the opcode byte (R50, R51). -/
def decodeStream (p : OpcodeParams) (bytes : List Byte) : Except DecodeError (Instr × List Byte) :=
  match bytes with
  | [] => .error .truncated
  | ir :: rest =>
    match decode p ir (rest.getD 0 0) (rest.getD 1 0) with
    | .error e => .error e
    | .ok i => if rest.length < nops ir then .error .truncated else .ok (i, rest.drop (nops ir))

/-- The bytes of an instruction, the opcode byte at the lowest address (R50, R52, and the table of R61). -/
def encode (p : OpcodeParams) (i : Instr) : List Byte :=
  match i with
  | .hlt => [opcHlt]
  | .ldi a b => [opcLdi, a, b]
  | .prn a => [opcPrn, a]
  | .add a b => [p.add, a, b]
  | .mul a b => [p.mul, a, b]
  | .push a => [p.push, a]
  | .pop a => [p.pop, a]
  | .call a => [p.call, a]
  | .ret => [p.ret]

/-- Byte `k` of an instruction numbered as spec/opcode_table.json numbers it: bits `8k+7` to `8k` of its `nbits` bits,
every bit above them zero (log 11). -/
def tableByte (nbits w k : Nat) : Byte := BitVec.ofNat 8 ((w % 2 ^ nbits) / 2 ^ (8 * k))

/-- The instruction the decoder reads from the bytes of the table's word, first byte at the lowest address (log 11). -/
def decodeTableWord (nbits w : Nat) : Option Instr :=
  match decode defaultOpcodes (tableByte nbits w 0) (tableByte nbits w 1) (tableByte nbits w 2) with
  | .ok i => some i
  | .error _ => none

end Sys2Proof
end

