-- ==== Sys2Proof/Machine/State.lean ====
section
/-! DEFINITION. The state of the machine as plain data (10_state.md rules R10 to R26), its reset value, and the reasons a
step can stop. -/

namespace Sys2Proof.Machine

/-- What the ALU can be asked to do (40_core_units.md rule R74). DESIGN CHOICE: the wider of the two types R74 allows, so
that UnsupportedOperation is representable; exact, hence safe (log 9). -/
inductive AluOp where
  | add
  | mul
  /-- Any other requested operation; the core never requests one (R142). -/
  | other (code : Nat)
  deriving DecidableEq, Repr

/-- The fault record of R20: the cause with the information it carries (60_exceptions.md rule R140). -/
inductive FaultRecord where
  /-- An address above 255 was read, written or assigned to pc (R141). -/
  | outOfBounds (addr : Nat)
  /-- The ALU was asked for an operation other than ADD and MUL (R142). -/
  | unsupportedOperation (op : AluOp)
  /-- The opcode byte at `pc` is none of the nine (R143). -/
  | unknownOpcode (opcode pc : Byte)
  /-- A register operand byte is 8 to 255 (R144). -/
  | registerIndexOutOfRange (b : Byte)
  /-- PRN with `out_ready` false (R145). -/
  | outputUnavailable
  deriving DecidableEq, Repr

/-- Memory: the (address, byte) pairs that differ from the reset content, by rising address (R23, R30). -/
abbrev Memory := List Host.Cell

/-- What an address not listed reads as: every cell is 0 after reset (R26). -/
def Memory.unlisted : Byte := 0

/-- The canonical form: addresses strictly rising and below 256, and no entry equal to what an unlisted address reads as. -/
abbrev Memory.wf (m : Memory) : Prop :=
  m.Pairwise (fun c d => c.1 < d.1) ∧ ∀ c ∈ m, c.1 < 256 ∧ c.2 ≠ Memory.unlisted

/-- The complete state (R10), and the one input `out_ready` (R6, log 7). -/
structure State where
  /-- `x[0]` to `x[7]`; `x[7]` is the stack pointer (R11, R12). -/
  x : Vector Byte 8
  /-- The program counter (R15). -/
  pc : Byte
  /-- The 256 memory cells (R23). -/
  mem : Memory
  /-- The halt flag (R19). -/
  halted : Bool
  /-- The fault record, when the core is FAULTED (R19, R20). -/
  fault : Option FaultRecord
  /-- The output stream, oldest value first (R24). -/
  out : List Byte
  /-- The input `out_ready` (R6, R145). The host's, written by no step (log 7). -/
  outReady : Bool
  deriving DecidableEq, Repr

/-- Why no further step exists. A fault OF AN INSTRUCTION is not one of these: it is taken as a next state that holds its
record (R149, log 6), and the step after it stops here. -/
inductive Fault where
  /-- Raised by `step` in HALTED: "in HALTED the core has no step" (R19). Safe: nothing is claimed beyond the halt (log 14). -/
  | halted
  /-- Raised by `step` in FAULTED, with the record the state holds (R149). Safe: the run has ended there (logs 6 and 14). -/
  | faulted (record : FaultRecord)
  deriving DecidableEq, Repr

/-- Reasons to refuse an instruction. -/
inductive Refusal where
  /-- An instruction with no meaning yet, raised by `exec` alone. Safe. No arm uses it: all nine are modelled. -/
  | notModelled (mnemonic : String)
  deriving DecidableEq, Repr

/-- The outcome of one instruction or one step. -/
abbrev Result := Host.Outcome State Fault Refusal

/-- The state after reset and before the host places the program (R26), with `out_ready` at its default (R6). -/
def State.reset : State where
  x := #v[0, 0, 0, 0, 0, 0, 0, 0xF4]
  pc := 0
  mem := []
  halted := false
  fault := none
  out := []
  outReady := true

end Sys2Proof.Machine
end

