-- ==== Sys2Proof/Machine/Ops.lean ====
section
/-! DEFINITION. The named operations over registers, memory, program counter, stack pointer and output, and taking a fault
(40_core_units.md rules R73 to R77, 20_memory.md rules R31 and R32, 60_exceptions.md rule R149). -/

namespace Sys2Proof.Machine

/-! ## register_file (R73) and the output stream -/

/-- `x[i]`, with no side effect (R73). -/
def State.reg (s : State) (i : RegIdx) : Byte := s.x[i]

/-- `x[i] <- v` (R73). A byte is already its value modulo 256 (R14). -/
def State.setReg (s : State) (i : RegIdx) (v : Byte) : State := { s with x := s.x.set i v }

/-- `Out(v)`: append to the output stream (R24). -/
def State.emit (s : State) (v : Byte) : State := { s with out := s.out ++ [v] }

/-- `pc <- v`. -/
def State.setPc (s : State) (v : Byte) : State := { s with pc := v }

/-- The state with another memory. -/
def State.setMem (s : State) (m : Memory) : State := { s with mem := m }

/-- `halted <- true` (R19). -/
def State.halt (s : State) : State := { s with halted := true }

/-- `fault <- F(info)` (R149). -/
def State.setFault (s : State) (f : FaultRecord) : State := { s with fault := some f }

/-! ## Taking a fault (R149) -/

/-- `raise F(info)`: the record is stored and the step ends, whatever the step wrote before stays, nothing else changes:
no handler, no saved pc, `halted` stays as it was (R149; D6, log 6). The core is then FAULTED and has no further step;
there is no return from it (R150). -/
def raise (f : FaultRecord) (s : State) : Result := .next (s.setFault f)

/-! ## The memory behind load_store_unit (R23, R31, R32) -/

/-- `mem[a]`. -/
def Memory.read (m : Memory) (a : Nat) : Byte :=
  match m with
  | [] => Memory.unlisted
  | c :: rest => if c.1 = a then c.2 else Memory.read rest a

/-- The list without address `a`. -/
def Memory.erase (m : Memory) (a : Nat) : Memory := m.filter (fun c => decide (c.1 ≠ a))

/-- Put a cell in its place by address. -/
def Memory.insert (m : Memory) (a : Nat) (v : Byte) : Memory :=
  match m with
  | [] => [(a, v)]
  | c :: rest => if c.1 < a then c :: Memory.insert rest a v else (a, v) :: c :: rest

/-- `mem[a] <- v`: that one cell and nothing else (R32), in canonical form. -/
def Memory.write (m : Memory) (a : Nat) (v : Byte) : Memory :=
  if v = Memory.unlisted then m.erase a else (m.erase a).insert a v

/-- Bytes at consecutive rising addresses from `a`, up to the end of memory: the host's program load (R44). -/
def Memory.writeBytes (m : Memory) (a : Nat) (bytes : List Byte) : Memory :=
  match bytes with
  | [] => m
  | b :: rest => if a < memSize then Memory.writeBytes (m.write a b) (a + 1) rest else m

/-- `MemRead(addr, 1)` (R31). -/
def memRead (m : Memory) (addr : Nat) : Except FaultRecord Byte :=
  if addr > 255 then .error (.outOfBounds addr) else .ok (m.read addr)

/-- `MemWrite(addr, 1, v)`, which stores `v mod 256` (R32). -/
def memWrite (m : Memory) (addr v : Nat) : Except FaultRecord Memory :=
  if addr > 255 then .error (.outOfBounds addr) else .ok (m.write addr (BitVec.ofNat 8 v))

/-- An instruction's data read: go on with the byte, or take the fault. -/
def loadByte (addr : Nat) (s : State) (k : Byte → Result) : Result :=
  match memRead s.mem addr with
  | .ok v => k v
  | .error f => raise f s

/-- An instruction's data write: go on with the state after it, or take the fault. -/
def storeByte (addr v : Nat) (s : State) (k : State → Result) : Result :=
  match memWrite s.mem addr v with
  | .ok m => k (s.setMem m)
  | .error f => raise f s

/-! ## program_counter (R76) -/

/-- `pc_advance(len)`: the plain sum is range-checked before it is stored, and pc keeps its value on the fault
(R17, R76; D3, log 3). -/
def pcAdvance (len : Nat) (s : State) : Result :=
  if s.pc.toNat + len > 255 then raise (.outOfBounds (s.pc.toNat + len)) s
  else .next (s.setPc (BitVec.ofNat 8 (s.pc.toNat + len)))

/-- `pc_load(t)`: always in range (R76). -/
def pcLoad (t : Byte) (s : State) : Result := .next (s.setPc t)

/-! ## stack_pointer (R77) -/

/-- The register that is the stack pointer (R5, R12). -/
def spIdx : RegIdx := 7

/-- `sp()` (R77). -/
def State.sp (s : State) : Byte := s.reg spIdx

/-- `sp_dec()`: modulo 256, 0 becomes 255 (R77). -/
def State.spDec (s : State) : State := s.setReg spIdx (s.sp - 1)

/-- `sp_inc()`: modulo 256, 255 becomes 0 (R77). -/
def State.spInc (s : State) : State := s.setReg spIdx (s.sp + 1)

/-- The push of PUSH and CALL: decrement, then write at the new pointer the value `v` gives in the state after the
decrement (R77, R120, R130; D5, log 5). -/
def pushByte (v : State → Nat) (s : State) (k : State → Result) : Result :=
  storeByte s.spDec.sp.toNat (v s.spDec) s.spDec k

/-- The pop of POP and RET: read at the pointer, give the byte to `dest`, then increment (R77, R121, R131; D5, log 5). -/
def popByte (dest : Byte → State → State) (s : State) (k : Byte → State → Result) : Result :=
  loadByte s.sp.toNat s (fun v => k v (dest v s).spInc)

end Sys2Proof.Machine
end

