-- ==== Sys2Proof/Machine/Operands.lean ====
section
/-! DEFINITION. The operand forms: a register operand byte (30_encoding.md rule R53, 40_core_units.md rule R73). An
immediate is the whole byte as it stands and needs no operation. There is no other form. -/

namespace Sys2Proof.Machine

/-- `regidx(b)`: the operand byte as a register index, or RegisterIndexOutOfRange; never masked (R53; D2, log 2). -/
def regidx (b : Byte) : Except FaultRecord RegIdx :=
  if h : b.toNat < 8 then .ok ⟨b.toNat, h⟩ else .error (.registerIndexOutOfRange b)

/-- The operand byte that names a register (R53). -/
def regByte (i : RegIdx) : Byte := BitVec.ofNat 8 i.val

/-- Check a register operand before any effect of the instruction: go on with its index, or take the fault (R73). -/
def withReg (b : Byte) (s : State) (k : RegIdx → Result) : Result :=
  match regidx b with
  | .ok i => k i
  | .error f => raise f s

end Sys2Proof.Machine
end

