-- ==== Sys2Proof/Machine/Alu.lean ====
section
/-! DEFINITION. The alu (40_core_units.md rule R74) and ADD, MUL (42_alu.md). -/

namespace Sys2Proof.Machine

/-- `alu(op, va, vb)`: the exact natural-number result reduced modulo 256, no flag, or UnsupportedOperation (R74, R112). -/
def alu (op : AluOp) (va vb : Byte) : Except FaultRecord Byte :=
  match op with
  | .add => .ok (BitVec.ofNat 8 (va.toNat + vb.toNat))
  | .mul => .ok (BitVec.ofNat 8 (va.toNat * vb.toNat))
  | .other n => .error (.unsupportedOperation (.other n))

/-- What ADD and MUL share: both indices checked, a first; both sources read, then the first register written; then
`pc_advance(3)` (R110, R111; order of checks: D10, log 10). -/
def aluRegReg (op : AluOp) (opa opb : Byte) (s : State) : Result :=
  withReg opa s fun a =>
    withReg opb s fun b =>
      match alu op (s.reg a) (s.reg b) with
      | .ok v => pcAdvance 3 (s.setReg a v)
      | .error f => raise f s

/-- ADD (R110). -/
def execAdd (opa opb : Byte) (s : State) : Result := aluRegReg .add opa opb s

/-- MUL (R111). -/
def execMul (opa opb : Byte) (s : State) : Result := aluRegReg .mul opa opb s

end Sys2Proof.Machine
end

