-- ==== Sys2Proof/Machine/CallReturn.lean ====
section
/-! DEFINITION. CALL, RET (44_call_return.md). -/

namespace Sys2Proof.Machine

/-- CALL: push `pc + 2`, then go to the register's value, read after the push (R130; D5, log 5). -/
def execCall (opa : Byte) (s : State) : Result :=
  withReg opa s fun a => pushByte (fun t => t.pc.toNat + 2) s (fun t => pcLoad (t.reg a) t)

/-- RET: go to the popped byte (R131). -/
def execRet (s : State) : Result := popByte (fun _ t => t) s pcLoad

end Sys2Proof.Machine
end

