-- ==== Sys2Proof/Machine/Stack.lean ====
section
/-! DEFINITION. PUSH, POP (43_stack.md). -/

namespace Sys2Proof.Machine

/-- PUSH: the register is read after the decrement, so `PUSH R7` pushes the decremented pointer (R120; D5, log 5). -/
def execPush (opa : Byte) (s : State) : Result :=
  withReg opa s fun a => pushByte (fun t => (t.reg a).toNat) s (pcAdvance 2)

/-- POP: the register is written before the increment, so `POP R7` leaves the popped byte plus 1 (R121; D5, log 5). -/
def execPop (opa : Byte) (s : State) : Result :=
  withReg opa s fun a => popByte (fun v t => t.setReg a v) s (fun _ t => pcAdvance 2 t)

end Sys2Proof.Machine
end

