-- ==== Sys2Proof/Machine/SystemData.lean ====
section
/-! DEFINITION. HLT, LDI, PRN (41_system_and_data.md). -/

namespace Sys2Proof.Machine

/-- HLT: `halted <- true`, pc unchanged (R100; pc: D17, log 13). -/
def execHlt (s : State) : Result := .next s.halt

/-- LDI: the register becomes the immediate, then `pc_advance(3)` (R101). -/
def execLdi (opa opb : Byte) (s : State) : Result :=
  withReg opa s fun a => pcAdvance 3 (s.setReg a opb)

/-- PRN: the register's value goes to the output stream if that can take it, then `pc_advance(2)` (R102, R145; D7, log 7). -/
def execPrn (opa : Byte) (s : State) : Result :=
  withReg opa s fun a =>
    if s.outReady then pcAdvance 2 (s.emit (s.reg a)) else raise .outputUnavailable s

end Sys2Proof.Machine
end

