-- ==== Sys2Proof/Machine/Flags.lean ====
section
/-! DEFINITION. The machine has no flags register, condition codes or predicates (10_state.md rule R18): no instruction sets
or tests any. Its whole status is the run state (10_state.md rule R19), computed here from `halted` and `fault`. -/

namespace Sys2Proof.Machine

/-- The three run states (R19). -/
inductive RunState where
  | running
  | halted
  /-- FAULTED, with the record (R20). -/
  | faulted (record : FaultRecord)
  deriving DecidableEq, Repr

/-- The run state of a state: FAULTED when `fault` holds a record, else HALTED when `halted`, else RUNNING (R19). -/
def State.runState (s : State) : RunState :=
  match s.fault with
  | some f => .faulted f
  | none => if s.halted then .halted else .running

end Sys2Proof.Machine
end

