-- ==== Sys2Proof/Machine/Sequencer.lean ====
section
/-! DEFINITION. The fetch_unit (40_core_units.md rule R71), the step over any opcode parameters (rule R70), and the host's
program load (20_memory.md rule R44). -/

namespace Sys2Proof.Machine

/-- `fetch(pc)`: three bytes, each read range-checked in order, whatever the instruction (R71; D4, D16, log 4). -/
def fetch (s : State) : Except FaultRecord (Byte × Byte × Byte) :=
  match memRead s.mem s.pc.toNat with
  | .error f => .error f
  | .ok ir =>
    match memRead s.mem (s.pc.toNat + 1) with
    | .error f => .error f
    | .ok opa =>
      match memRead s.mem (s.pc.toNat + 2) with
      | .error f => .error f
      | .ok opb => .ok (ir, opa, opb)

/-- Fetch, then decode: the instruction at pc, or the fault that precedes execution (R70, R148). -/
def fetchDecode (p : OpcodeParams) (s : State) : Except FaultRecord Instr :=
  match fetch s with
  | .error f => .error f
  | .ok (ir, opa, opb) =>
    match decode p ir opa opb with
    | .ok i => .ok i
    | .error _ => .error (.unknownOpcode ir s.pc)

/-- `step()` of R70 with the opcode parameters as an argument of the machine (R6): enabled only in RUNNING. -/
def stepWith (p : OpcodeParams) (s : State) : Result :=
  match s.runState with
  | .halted => .fault .halted
  | .faulted f => .fault (.faulted f)
  | .running =>
    match fetchDecode p s with
    | .ok i => exec i s
    | .error f => raise f s

/-- The host's `load(bytes)` before the first step: the bytes at address 0 upward, nothing else touched; a sequence longer
than memory is rejected (R44; D19, log 15). -/
def load (bytes : List Byte) (s : State) : Option State :=
  if bytes.length ≤ memSize then some (s.setMem (s.mem.writeBytes 0 bytes)) else none

/-- The host's built-in program, `LDI R0, 8; PRN R0; HLT` (R63). -/
def fallbackProgram : List Byte := [0x82, 0x00, 0x08, 0x47, 0x00, 0x01]

/-- The three bytes of a table word stored from pc upward, as far as memory goes (logs 11 and 20). -/
def placeWord (s : State) (nbits w : Nat) : State :=
  s.setMem (s.mem.writeBytes s.pc.toNat [tableByte nbits w 0, tableByte nbits w 1, tableByte nbits w 2])

end Sys2Proof.Machine
end

