-- ==== Sys2Proof/Machine/Step.lean ====
section
/-! DEFINITION. The step of the machine at the default opcode parameters, and placing an instruction where it fetches. -/

namespace Sys2Proof.Machine

/-- One step (R70) with the default opcode bytes (R6, R54; log 1). -/
def step (s : State) : Host.Outcome State Fault Refusal := stepWith defaultOpcodes s

/-- `s` with the instruction of a table word stored at pc, where `step` fetches. Nothing else changes: no instruction can
be fetched at pc 254 or 255, nor in HALTED or FAULTED (log 20). -/
def State.withFetchWord (s : State) (nbits w : Nat) : State := placeWord s nbits w

end Sys2Proof.Machine
end

