-- ==== Sys2Proof/WellFormed.lean ====
section
/-! DEFINITION. Which instructions are well formed: every register operand byte is a register index, 0 to 7
(30_encoding.md rule R53). An ill-formed one still decodes, and executing it raises RegisterIndexOutOfRange. -/

namespace Sys2Proof

/-- The legal range of a register operand byte (R53). -/
def regOperandOk (b : Byte) : Bool := decide (b.toNat ≤ 7)

/-- The register operand bytes of an instruction, operand a first (R53); LDI's second byte is an immediate. -/
def Instr.regOperands (i : Instr) : List Byte :=
  match i with
  | .hlt => []
  | .ldi a _ => [a]
  | .prn a => [a]
  | .add a b => [a, b]
  | .mul a b => [a, b]
  | .push a => [a]
  | .pop a => [a]
  | .call a => [a]
  | .ret => []

/-- Every register operand is in range. -/
def Instr.wellFormed (i : Instr) : Bool := i.regOperands.all regOperandOk

end Sys2Proof
end

