-- ==== Sys2Proof/Laws/PerInstr.lean ====
section
/-! SUPPORT. Facts made per instruction, about the instruction as syntax: its encoding is an opcode byte and at most two
operand bytes, and its register operands stand among the operand bytes in order (30_encoding.md rules R50 and R52). -/

namespace Sys2Proof.Laws

/-- One opcode byte, at most two operand bytes, the register operands among them in order, for any opcode parameters. -/
def EncodedOperands.Statement (i : Instr) : Prop :=
  ∀ p : OpcodeParams, ∃ op ops, encode p i = op :: ops ∧ ops.length ≤ 2 ∧ i.regOperands.Sublist ops

theorem EncodedOperands.hlt : EncodedOperands.Statement .hlt :=
  fun _ => ⟨_, _, rfl, by simp, List.Sublist.refl _⟩
theorem EncodedOperands.ldi (a b : Byte) : EncodedOperands.Statement (.ldi a b) :=
  fun _ => ⟨_, _, rfl, by simp, by simp [Instr.regOperands]⟩
theorem EncodedOperands.prn (a : Byte) : EncodedOperands.Statement (.prn a) :=
  fun _ => ⟨_, _, rfl, by simp, List.Sublist.refl _⟩
theorem EncodedOperands.add (a b : Byte) : EncodedOperands.Statement (.add a b) :=
  fun _ => ⟨_, _, rfl, by simp, List.Sublist.refl _⟩
theorem EncodedOperands.mul (a b : Byte) : EncodedOperands.Statement (.mul a b) :=
  fun _ => ⟨_, _, rfl, by simp, List.Sublist.refl _⟩
theorem EncodedOperands.push (a : Byte) : EncodedOperands.Statement (.push a) :=
  fun _ => ⟨_, _, rfl, by simp, List.Sublist.refl _⟩
theorem EncodedOperands.pop (a : Byte) : EncodedOperands.Statement (.pop a) :=
  fun _ => ⟨_, _, rfl, by simp, List.Sublist.refl _⟩
theorem EncodedOperands.call (a : Byte) : EncodedOperands.Statement (.call a) :=
  fun _ => ⟨_, _, rfl, by simp, List.Sublist.refl _⟩
theorem EncodedOperands.ret : EncodedOperands.Statement .ret :=
  fun _ => ⟨_, _, rfl, by simp, List.Sublist.refl _⟩

end Sys2Proof.Laws
end

