-- ==== Sys2Proof/Laws/Memory.lean ====
section
/-! SUPPORT. The laws of memory: a read after a write, in ANY list, and that every memory operation keeps the canonical form. -/

namespace Sys2Proof.Machine

theorem Memory.read_erase (m : Memory) (a b : Nat) :
    (m.erase a).read b = if b = a then Memory.unlisted else m.read b := by
  induction m with
  | nil => simp [Memory.erase, Memory.read]
  | cons c rest ih =>
    unfold Memory.erase at ih ⊢
    by_cases hc : c.1 = a
    · rw [List.filter_cons_of_neg (by simp [hc]), ih]
      by_cases hb : b = a
      · simp [hb]
      · simp [hb, Memory.read, show c.1 ≠ b by omega]
    · rw [List.filter_cons_of_pos (by simp [hc])]
      by_cases hb : c.1 = b
      · simp [Memory.read, hb, show b ≠ a by omega]
      · simpa [Memory.read, hb] using ih

/-- A cell put into a list that does not hold its address. -/
theorem Memory.read_insert (m : Memory) (a b : Nat) (v : Byte) (h : ∀ c ∈ m, c.1 ≠ a) :
    (m.insert a v).read b = if b = a then v else m.read b := by
  induction m with
  | nil => simp [Memory.insert, Memory.read, eq_comm (a := a)]
  | cons c rest ih =>
    have hc : c.1 ≠ a := h c (by simp)
    have ih' := ih (fun d hd => h d (by simp [hd]))
    by_cases hlt : c.1 < a
    · by_cases hb : c.1 = b
      · simp [Memory.insert, Memory.read, hb, show b < a by omega, show b ≠ a by omega]
      · simp [Memory.insert, hlt, Memory.read, hb, ih']
    · by_cases hb : b = a
      · simp [Memory.insert, hlt, Memory.read, hb]
      · simp [Memory.insert, hlt, Memory.read, hb, show a ≠ b by omega]

/-- A write changes that one cell and nothing else (R32), in every list, canonical or not. -/
theorem Memory.read_write (m : Memory) (a b : Nat) (v : Byte) :
    (m.write a v).read b = if b = a then v else m.read b := by
  by_cases hv : v = Memory.unlisted
  · simp [Memory.write, hv, Memory.read_erase]
  · have hno : ∀ c ∈ m.erase a, c.1 ≠ a := by simp [Memory.erase]
    rw [Memory.write, if_neg hv, Memory.read_insert _ _ _ _ hno, Memory.read_erase]
    by_cases hb : b = a <;> simp [hb]

theorem Memory.wf_erase {m : Memory} (h : m.wf) (a : Nat) : (m.erase a).wf :=
  ⟨h.1.filter _, fun c hc => h.2 c (List.mem_of_mem_filter hc)⟩

theorem Memory.mem_insert (m : Memory) (a : Nat) (v : Byte) (c : Host.Cell) :
    c ∈ m.insert a v ↔ c = (a, v) ∨ c ∈ m := by
  induction m with
  | nil => simp [Memory.insert]
  | cons d rest ih =>
    by_cases hd : d.1 < a
    · simp [Memory.insert, hd, ih, or_left_comm]
    · simp [Memory.insert, hd]

theorem Memory.wf_insert {m : Memory} (h : m.wf) {a : Nat} {v : Byte} (ha : a < 256) (hv : v ≠ Memory.unlisted)
    (hno : ∀ c ∈ m, c.1 ≠ a) : (m.insert a v).wf := by
  refine ⟨?_, fun c hc => ?_⟩
  · induction m with
    | nil => simp [Memory.insert]
    | cons d rest ih =>
      have hp := List.pairwise_cons.mp h.1
      have hd : d.1 ≠ a := hno d (by simp)
      by_cases hlt : d.1 < a
      · simp only [Memory.insert, hlt, if_true]
        refine List.pairwise_cons.mpr ⟨fun c hc => ?_, ih ⟨hp.2, fun c hc => h.2 c (by simp [hc])⟩
          (fun c hc => hno c (by simp [hc]))⟩
        rcases (Memory.mem_insert rest a v c).mp hc with rfl | hc'
        · exact hlt
        · exact hp.1 c hc'
      · simp only [Memory.insert, hlt, if_false]
        refine List.pairwise_cons.mpr ⟨fun c hc => ?_, h.1⟩
        show a < c.1
        rcases List.mem_cons.mp hc with rfl | hc'
        · omega
        · have := hp.1 c hc'; omega
  · rcases (Memory.mem_insert m a v c).mp hc with rfl | hc'
    · exact ⟨ha, hv⟩
    · exact h.2 c hc'

/-- A write inside the address space keeps the canonical form. -/
theorem Memory.wf_write {m : Memory} (h : m.wf) {a : Nat} (ha : a < 256) (v : Byte) : (m.write a v).wf := by
  by_cases hv : v = Memory.unlisted
  · simpa only [Memory.write, if_pos hv] using Memory.wf_erase h a
  · rw [Memory.write, if_neg hv]
    exact Memory.wf_insert (Memory.wf_erase h a) ha hv (by simp [Memory.erase])

/-- The host's load and the placing of a word keep the canonical form. -/
theorem Memory.wf_writeBytes {m : Memory} (h : m.wf) (a : Nat) (bytes : List Byte) : (m.writeBytes a bytes).wf := by
  induction bytes generalizing m a with
  | nil => simpa [Memory.writeBytes] using h
  | cons b rest ih =>
    by_cases ha : a < memSize
    · simpa [Memory.writeBytes, ha] using ih (Memory.wf_write h (show a < 256 from ha) b) (a + 1)
    · simpa [Memory.writeBytes, ha] using h

/-- Cells below the first byte written keep their value. -/
theorem Memory.read_writeBytes_below (m : Memory) (a : Nat) (bytes : List Byte) {c : Nat} (h : c < a) :
    (m.writeBytes a bytes).read c = m.read c := by
  induction bytes generalizing m a with
  | nil => rfl
  | cons b rest ih =>
    by_cases ha : a < memSize
    · simp only [Memory.writeBytes, ha, if_true]
      rw [ih (m.write a b) (a + 1) (by omega), Memory.read_write, if_neg (by omega)]
    · simp [Memory.writeBytes, ha]

theorem memRead_ok (m : Memory) {a : Nat} (h : a ≤ 255) : memRead m a = .ok (m.read a) := by
  simp [memRead, Nat.not_lt.mpr h]

theorem memRead_error (m : Memory) {a : Nat} (h : 255 < a) : memRead m a = .error (.outOfBounds a) := by
  simp [memRead, h]

theorem memWrite_ok (m : Memory) {a : Nat} (v : Nat) (h : a ≤ 255) :
    memWrite m a v = .ok (m.write a (BitVec.ofNat 8 v)) := by
  simp [memWrite, Nat.not_lt.mpr h]

theorem memWrite_error (m : Memory) {a : Nat} (v : Nat) (h : 255 < a) : memWrite m a v = .error (.outOfBounds a) := by
  simp [memWrite, h]

/-- `MemWrite` keeps the canonical form whenever it writes. -/
theorem memWrite_wf {m m' : Memory} {a v : Nat} (h : m.wf) (hw : memWrite m a v = .ok m') : m'.wf := by
  by_cases ha : 255 < a
  · simp [memWrite_error m v ha] at hw
  · rw [memWrite_ok m v (by omega)] at hw
    cases hw
    exact Memory.wf_write h (by omega) _

end Sys2Proof.Machine
end

