-- ==== Sys2Proof/Laws/State.lean ====
section
/-! SUPPORT. The small lemmas of the state: one per field per named update, and reading a register after writing one. -/

namespace Sys2Proof.Machine

@[simp] theorem State.setReg_pc (s : State) (i : RegIdx) (v : Byte) : (s.setReg i v).pc = s.pc := rfl
@[simp] theorem State.setReg_mem (s : State) (i : RegIdx) (v : Byte) : (s.setReg i v).mem = s.mem := rfl
@[simp] theorem State.setReg_halted (s : State) (i : RegIdx) (v : Byte) : (s.setReg i v).halted = s.halted := rfl
@[simp] theorem State.setReg_fault (s : State) (i : RegIdx) (v : Byte) : (s.setReg i v).fault = s.fault := rfl
@[simp] theorem State.setReg_out (s : State) (i : RegIdx) (v : Byte) : (s.setReg i v).out = s.out := rfl
@[simp] theorem State.setReg_outReady (s : State) (i : RegIdx) (v : Byte) : (s.setReg i v).outReady = s.outReady := rfl

@[simp] theorem State.emit_x (s : State) (v : Byte) : (s.emit v).x = s.x := rfl
@[simp] theorem State.emit_pc (s : State) (v : Byte) : (s.emit v).pc = s.pc := rfl
@[simp] theorem State.emit_mem (s : State) (v : Byte) : (s.emit v).mem = s.mem := rfl
@[simp] theorem State.emit_halted (s : State) (v : Byte) : (s.emit v).halted = s.halted := rfl
@[simp] theorem State.emit_fault (s : State) (v : Byte) : (s.emit v).fault = s.fault := rfl
@[simp] theorem State.emit_out (s : State) (v : Byte) : (s.emit v).out = s.out ++ [v] := rfl
@[simp] theorem State.emit_outReady (s : State) (v : Byte) : (s.emit v).outReady = s.outReady := rfl
@[simp] theorem State.reg_emit (s : State) (v : Byte) (i : RegIdx) : (s.emit v).reg i = s.reg i := rfl
@[simp] theorem State.sp_emit (s : State) (v : Byte) : (s.emit v).sp = s.sp := rfl

@[simp] theorem State.setPc_x (s : State) (v : Byte) : (s.setPc v).x = s.x := rfl
@[simp] theorem State.setPc_pc (s : State) (v : Byte) : (s.setPc v).pc = v := rfl
@[simp] theorem State.setPc_mem (s : State) (v : Byte) : (s.setPc v).mem = s.mem := rfl
@[simp] theorem State.setPc_halted (s : State) (v : Byte) : (s.setPc v).halted = s.halted := rfl
@[simp] theorem State.setPc_fault (s : State) (v : Byte) : (s.setPc v).fault = s.fault := rfl
@[simp] theorem State.setPc_out (s : State) (v : Byte) : (s.setPc v).out = s.out := rfl
@[simp] theorem State.setPc_outReady (s : State) (v : Byte) : (s.setPc v).outReady = s.outReady := rfl
@[simp] theorem State.reg_setPc (s : State) (v : Byte) (i : RegIdx) : (s.setPc v).reg i = s.reg i := rfl
@[simp] theorem State.sp_setPc (s : State) (v : Byte) : (s.setPc v).sp = s.sp := rfl

@[simp] theorem State.setMem_x (s : State) (m : Memory) : (s.setMem m).x = s.x := rfl
@[simp] theorem State.setMem_pc (s : State) (m : Memory) : (s.setMem m).pc = s.pc := rfl
@[simp] theorem State.setMem_mem (s : State) (m : Memory) : (s.setMem m).mem = m := rfl
@[simp] theorem State.setMem_halted (s : State) (m : Memory) : (s.setMem m).halted = s.halted := rfl
@[simp] theorem State.setMem_fault (s : State) (m : Memory) : (s.setMem m).fault = s.fault := rfl
@[simp] theorem State.setMem_out (s : State) (m : Memory) : (s.setMem m).out = s.out := rfl
@[simp] theorem State.setMem_outReady (s : State) (m : Memory) : (s.setMem m).outReady = s.outReady := rfl
@[simp] theorem State.reg_setMem (s : State) (m : Memory) (i : RegIdx) : (s.setMem m).reg i = s.reg i := rfl
@[simp] theorem State.sp_setMem (s : State) (m : Memory) : (s.setMem m).sp = s.sp := rfl

@[simp] theorem State.halt_x (s : State) : s.halt.x = s.x := rfl
@[simp] theorem State.halt_pc (s : State) : s.halt.pc = s.pc := rfl
@[simp] theorem State.halt_mem (s : State) : s.halt.mem = s.mem := rfl
@[simp] theorem State.halt_halted (s : State) : s.halt.halted = true := rfl
@[simp] theorem State.halt_fault (s : State) : s.halt.fault = s.fault := rfl
@[simp] theorem State.halt_out (s : State) : s.halt.out = s.out := rfl
@[simp] theorem State.halt_outReady (s : State) : s.halt.outReady = s.outReady := rfl
@[simp] theorem State.reg_halt (s : State) (i : RegIdx) : s.halt.reg i = s.reg i := rfl
@[simp] theorem State.sp_halt (s : State) : s.halt.sp = s.sp := rfl

@[simp] theorem State.setFault_x (s : State) (f : FaultRecord) : (s.setFault f).x = s.x := rfl
@[simp] theorem State.setFault_pc (s : State) (f : FaultRecord) : (s.setFault f).pc = s.pc := rfl
@[simp] theorem State.setFault_mem (s : State) (f : FaultRecord) : (s.setFault f).mem = s.mem := rfl
@[simp] theorem State.setFault_halted (s : State) (f : FaultRecord) : (s.setFault f).halted = s.halted := rfl
@[simp] theorem State.setFault_fault (s : State) (f : FaultRecord) : (s.setFault f).fault = some f := rfl
@[simp] theorem State.setFault_out (s : State) (f : FaultRecord) : (s.setFault f).out = s.out := rfl
@[simp] theorem State.setFault_outReady (s : State) (f : FaultRecord) : (s.setFault f).outReady = s.outReady := rfl
@[simp] theorem State.reg_setFault (s : State) (f : FaultRecord) (i : RegIdx) : (s.setFault f).reg i = s.reg i := rfl
@[simp] theorem State.sp_setFault (s : State) (f : FaultRecord) : (s.setFault f).sp = s.sp := rfl

@[simp] theorem State.spDec_pc (s : State) : s.spDec.pc = s.pc := rfl
@[simp] theorem State.spDec_mem (s : State) : s.spDec.mem = s.mem := rfl
@[simp] theorem State.spDec_halted (s : State) : s.spDec.halted = s.halted := rfl
@[simp] theorem State.spDec_fault (s : State) : s.spDec.fault = s.fault := rfl
@[simp] theorem State.spDec_out (s : State) : s.spDec.out = s.out := rfl
@[simp] theorem State.spDec_outReady (s : State) : s.spDec.outReady = s.outReady := rfl

@[simp] theorem State.spInc_pc (s : State) : s.spInc.pc = s.pc := rfl
@[simp] theorem State.spInc_mem (s : State) : s.spInc.mem = s.mem := rfl
@[simp] theorem State.spInc_halted (s : State) : s.spInc.halted = s.halted := rfl
@[simp] theorem State.spInc_fault (s : State) : s.spInc.fault = s.fault := rfl
@[simp] theorem State.spInc_out (s : State) : s.spInc.out = s.out := rfl
@[simp] theorem State.spInc_outReady (s : State) : s.spInc.outReady = s.outReady := rfl

/-- The stack pointer is register 7 (R12). -/
theorem State.reg_seven (s : State) : s.reg 7 = s.sp := rfl

@[simp] theorem State.reg_setReg_same (s : State) (i : RegIdx) (v : Byte) : (s.setReg i v).reg i = v := by
  simp [State.reg, State.setReg]

/-- Writing one register leaves every other alone (R73). -/
theorem State.reg_setReg_ne (s : State) {i j : RegIdx} (v : Byte) (h : j ≠ i) : (s.setReg i v).reg j = s.reg j := by
  have hne : (i : Nat) ≠ (j : Nat) := fun e => h (Fin.ext e.symm)
  simp [State.reg, State.setReg, hne]

theorem State.reg_setReg (s : State) (i j : RegIdx) (v : Byte) :
    (s.setReg i v).reg j = if j = i then v else s.reg j := by
  by_cases h : j = i
  · subst h; simp
  · simp [h, State.reg_setReg_ne]

@[simp] theorem State.sp_spDec (s : State) : s.spDec.sp = s.sp - 1 := State.reg_setReg_same s 7 _

@[simp] theorem State.sp_spInc (s : State) : s.spInc.sp = s.sp + 1 := State.reg_setReg_same s 7 _

/-- The stack pointer unit moves register 7 alone (R77). -/
theorem State.reg_spDec_ne (s : State) {i : RegIdx} (h : i ≠ 7) : s.spDec.reg i = s.reg i :=
  State.reg_setReg_ne s _ h

theorem State.reg_spInc_ne (s : State) {i : RegIdx} (h : i ≠ 7) : s.spInc.reg i = s.reg i :=
  State.reg_setReg_ne s _ h

/-- Writing another register leaves the stack pointer alone. -/
theorem State.sp_setReg_ne (s : State) {i : RegIdx} (v : Byte) (h : i ≠ 7) : (s.setReg i v).sp = s.sp :=
  State.reg_setReg_ne s v (fun e => h e.symm)

@[simp] theorem State.sp_setReg_seven (s : State) (v : Byte) : (s.setReg 7 v).sp = v := State.reg_setReg_same s 7 v

/-- Two register files that agree on every register are one. -/
theorem State.x_ext {s t : State} (h : ∀ i, s.reg i = t.reg i) : s.x = t.x :=
  Vector.ext fun i hi => h ⟨i, hi⟩

end Sys2Proof.Machine
end

