-- ==== Sys2Proof/Laws/Ops.lean ====
section
/-! SUPPORT. For each shared operation, once, everything it can do. -/

namespace Sys2Proof.Machine

theorem byte_le_255 (b : Byte) : b.toNat ≤ 255 := by
  have := b.isLt
  omega

@[simp] theorem regByte_toNat (i : RegIdx) : (regByte i).toNat = i.val := by
  have := i.isLt
  simp only [regByte, BitVec.toNat_ofNat]
  omega

/-- A byte in range names its register (R53). -/
theorem regidx_regByte (i : RegIdx) : regidx (regByte i) = .ok i := by
  simp [regidx]

/-- A byte out of range is refused (R144). -/
theorem regidx_bad {b : Byte} (h : 7 < b.toNat) : regidx b = .error (.registerIndexOutOfRange b) := by
  simp [regidx, show ¬ b.toNat < 8 by omega]

/-- Everything the operand check can do: the byte names a register and the instruction goes on, or the fault is taken and
nothing else changes. -/
theorem withReg_cases (b : Byte) (s : State) (k : RegIdx → Result) :
    (∃ i, b = regByte i ∧ withReg b s k = k i) ∨
      (7 < b.toNat ∧ withReg b s k = .next (s.setFault (.registerIndexOutOfRange b))) := by
  by_cases h : b.toNat < 8
  · refine .inl ⟨⟨b.toNat, h⟩, ?_, ?_⟩
    · apply BitVec.eq_of_toNat_eq
      simp
    · simp [withReg, regidx, h]
  · exact .inr ⟨by omega, by simp [withReg, regidx, h, raise]⟩

theorem withReg_regByte (i : RegIdx) (s : State) (k : RegIdx → Result) : withReg (regByte i) s k = k i := by
  simp [withReg, regidx_regByte]

theorem withReg_bad {b : Byte} (h : 7 < b.toNat) (s : State) (k : RegIdx → Result) :
    withReg b s k = .next (s.setFault (.registerIndexOutOfRange b)) := by
  simp [withReg, regidx_bad h, raise]

/-- Everything `pc_advance` can do (R76). -/
theorem pcAdvance_cases (len : Nat) (s : State) :
    (s.pc.toNat + len ≤ 255 ∧ pcAdvance len s = .next (s.setPc (BitVec.ofNat 8 (s.pc.toNat + len)))) ∨
      (255 < s.pc.toNat + len ∧
        pcAdvance len s = .next (s.setFault (.outOfBounds (s.pc.toNat + len)))) := by
  by_cases h : s.pc.toNat + len > 255
  · exact .inr ⟨h, by simp [pcAdvance, h, raise]⟩
  · exact .inl ⟨by omega, by simp [pcAdvance, h]⟩

theorem pcAdvance_ok {len : Nat} {s : State} (h : s.pc.toNat + len ≤ 255) :
    pcAdvance len s = .next (s.setPc (BitVec.ofNat 8 (s.pc.toNat + len))) := by
  simp [pcAdvance, Nat.not_lt.mpr h]

theorem pcAdvance_late {len : Nat} {s : State} (h : 255 < s.pc.toNat + len) :
    pcAdvance len s = .next (s.setFault (.outOfBounds (s.pc.toNat + len))) := by
  simp [pcAdvance, h, raise]

/-- A data read at a byte address always goes on (R141). -/
theorem loadByte_byte (a : Byte) (s : State) (k : Byte → Result) : loadByte a.toNat s k = k (s.mem.read a.toNat) := by
  simp [loadByte, memRead_ok s.mem (byte_le_255 a)]

/-- A data write at a byte address always goes on (R32). -/
theorem storeByte_byte (a : Byte) (v : Nat) (s : State) (k : State → Result) :
    storeByte a.toNat v s k = k (s.setMem (s.mem.write a.toNat (BitVec.ofNat 8 v))) := by
  simp [storeByte, memWrite_ok s.mem v (byte_le_255 a)]

/-- Everything a push does: pointer down by one, the value there, and on (R77, R122). -/
theorem pushByte_spec (v : State → Nat) (s : State) (k : State → Result) :
    pushByte v s k =
      k (s.spDec.setMem (s.mem.write (s.sp - 1).toNat (BitVec.ofNat 8 (v s.spDec)))) := by
  simp only [pushByte, State.sp_spDec]
  rw [storeByte_byte]
  simp

/-- Everything a pop does: the byte at the pointer, delivered, then the pointer up by one (R77, R122). -/
theorem popByte_spec (dest : Byte → State → State) (s : State) (k : Byte → State → Result) :
    popByte dest s k = k (s.mem.read s.sp.toNat) (dest (s.mem.read s.sp.toNat) s).spInc := by
  rw [popByte, loadByte_byte]

/-- The ALU's two operations never fault (R74). -/
theorem alu_add (va vb : Byte) : alu .add va vb = .ok (va + vb) := rfl

theorem alu_mul (va vb : Byte) : alu .mul va vb = .ok (va * vb) := rfl

/-- The ALU's result for an operation of the core: ADD or MUL never fault, so the shared path of the two writes its first
register and advances (R110, R111). -/
theorem aluRegReg_regByte {op : AluOp} (a b : RegIdx) {s : State} {v : Byte}
    (h : alu op (s.reg a) (s.reg b) = .ok v) :
    aluRegReg op (regByte a) (regByte b) s = pcAdvance 3 (s.setReg a v) := by
  rw [aluRegReg, withReg_regByte, withReg_regByte, h]

end Sys2Proof.Machine
end

