-- ==== Sys2Proof/Laws/Exec.lean ====
section
/-! SUPPORT. Each instruction's meaning on register operands in range, with the operand check and the unit operations run:
the one equation per instruction that a proof about it starts from. Operands out of range: `withReg_bad`. -/

namespace Sys2Proof.Machine

/-- Every operand byte names a register or is out of range. -/
theorem regByte_or_bad (b : Byte) : (∃ r, b = regByte r) ∨ 7 < b.toNat := by
  by_cases h : b.toNat < 8
  · exact .inl ⟨⟨b.toNat, h⟩, BitVec.eq_of_toNat_eq (by simp)⟩
  · exact .inr (by omega)

theorem exec_hlt (s : State) : exec .hlt s = .next s.halt := rfl

theorem exec_ldi (a : RegIdx) (imm : Byte) (s : State) :
    exec (.ldi (regByte a) imm) s = pcAdvance 3 (s.setReg a imm) := by
  rw [exec, execLdi, withReg_regByte]

theorem exec_prn (a : RegIdx) (s : State) :
    exec (.prn (regByte a)) s =
      if s.outReady then pcAdvance 2 (s.emit (s.reg a)) else .next (s.setFault .outputUnavailable) := by
  rw [exec, execPrn, withReg_regByte, raise]

theorem exec_add (a b : RegIdx) (s : State) :
    exec (.add (regByte a) (regByte b)) s = pcAdvance 3 (s.setReg a (s.reg a + s.reg b)) := by
  rw [exec, execAdd, aluRegReg_regByte a b (alu_add _ _)]

theorem exec_mul (a b : RegIdx) (s : State) :
    exec (.mul (regByte a) (regByte b)) s = pcAdvance 3 (s.setReg a (s.reg a * s.reg b)) := by
  rw [exec, execMul, aluRegReg_regByte a b (alu_mul _ _)]

theorem exec_push (a : RegIdx) (s : State) :
    exec (.push (regByte a)) s =
      pcAdvance 2 (s.spDec.setMem (s.mem.write (s.sp - 1).toNat (s.spDec.reg a))) := by
  rw [exec, execPush, withReg_regByte, pushByte_spec, BitVec.ofNat_toNat, BitVec.setWidth_eq]

theorem exec_pop (a : RegIdx) (s : State) :
    exec (.pop (regByte a)) s = pcAdvance 2 (s.setReg a (s.mem.read s.sp.toNat)).spInc := by
  rw [exec, execPop, withReg_regByte, popByte_spec]

theorem exec_call (a : RegIdx) (s : State) :
    exec (.call (regByte a)) s =
      .next ((s.spDec.setMem (s.mem.write (s.sp - 1).toNat (BitVec.ofNat 8 (s.pc.toNat + 2)))).setPc (s.spDec.reg a)) := by
  rw [exec, execCall, withReg_regByte, pushByte_spec]
  rfl

theorem exec_ret (s : State) : exec .ret s = .next (s.spInc.setPc (s.mem.read s.sp.toNat)) := by
  rw [exec, execRet, popByte_spec]
  rfl

end Sys2Proof.Machine
end

