-- ==== Sys2Proof/Laws/Step.lean ====
section
/-! SUPPORT. The fetch and the step, said once: what a step can do in each run state. -/

namespace Sys2Proof.Machine

/-- A fetch at 253 or below gives the three bytes (R71). -/
theorem fetch_ok {s : State} (h : s.pc.toNat ≤ 253) :
    fetch s = .ok (s.mem.read s.pc.toNat, s.mem.read (s.pc.toNat + 1), s.mem.read (s.pc.toNat + 2)) := by
  simp [fetch, memRead_ok s.mem (show s.pc.toNat ≤ 255 by omega), memRead_ok s.mem (show s.pc.toNat + 1 ≤ 255 by omega),
    memRead_ok s.mem (show s.pc.toNat + 2 ≤ 255 by omega)]

/-- A fetch at 254 or 255 is out of bounds at address 256 (R71). -/
theorem fetch_error {s : State} (h : 253 < s.pc.toNat) : fetch s = .error (.outOfBounds 256) := by
  have hb := byte_le_255 s.pc
  rcases (show s.pc.toNat = 254 ∨ s.pc.toNat = 255 by omega) with e | e <;> simp [fetch, memRead, e]

/-- Everything fetch and decode can give (R148, causes 1 and 2). -/
theorem fetchDecode_cases (p : OpcodeParams) (s : State) :
    (253 < s.pc.toNat ∧ fetchDecode p s = .error (.outOfBounds 256)) ∨
      (s.pc.toNat ≤ 253 ∧
        (∃ e, decode p (s.mem.read s.pc.toNat) (s.mem.read (s.pc.toNat + 1)) (s.mem.read (s.pc.toNat + 2)) = .error e) ∧
        fetchDecode p s = .error (.unknownOpcode (s.mem.read s.pc.toNat) s.pc)) ∨
      (s.pc.toNat ≤ 253 ∧
        ∃ i, decode p (s.mem.read s.pc.toNat) (s.mem.read (s.pc.toNat + 1)) (s.mem.read (s.pc.toNat + 2)) = .ok i ∧
          fetchDecode p s = .ok i) := by
  by_cases h : s.pc.toNat ≤ 253
  · cases hd : decode p (s.mem.read s.pc.toNat) (s.mem.read (s.pc.toNat + 1)) (s.mem.read (s.pc.toNat + 2)) with
    | error e => exact .inr (.inl ⟨h, ⟨e, rfl⟩, by simp [fetchDecode, fetch_ok h, hd]⟩)
    | ok i => exact .inr (.inr ⟨h, i, rfl, by simp [fetchDecode, fetch_ok h, hd]⟩)
  · exact .inl ⟨by omega, by simp [fetchDecode, fetch_error (show 253 < s.pc.toNat by omega)]⟩

/-- A step that gives a next state started in RUNNING, and either executed the decoded instruction or took the fault of the
fetch or the decoder (R70). -/
theorem stepWith_cases {p : OpcodeParams} {s t : State} (h : stepWith p s = .next t) :
    (s.halted = false ∧ s.fault = none) ∧
      ((∃ i, fetchDecode p s = .ok i ∧ exec i s = .next t) ∨
        (∃ f, fetchDecode p s = .error f ∧ t = s.setFault f)) := by
  cases hf : s.fault with
  | some f => simp [stepWith, State.runState, hf] at h
  | none =>
    cases hh : s.halted with
    | true => simp [stepWith, State.runState, hf, hh] at h
    | false =>
      refine ⟨⟨rfl, rfl⟩, ?_⟩
      simp only [stepWith, State.runState, hf, hh] at h
      cases hd : fetchDecode p s with
      | ok i => exact .inl ⟨i, rfl, by simpa [hd] using h⟩
      | error f => exact .inr ⟨f, rfl, by simpa [hd, raise] using h.symm⟩

end Sys2Proof.Machine
end

