-- ==== Sys2Proof/Safety.lean ====
section
/-! DEFINITION. What claims are stated in: the running state, a safe end, which registers and cells an instruction may touch
(10_state.md rule R13, 20_memory.md rule R33), the order of faults (60_exceptions.md rule R148), and the invariant of every
step. Nothing here is used by the machine. -/

namespace Sys2Proof.Machine

/-- RUNNING: the core can step (R19). -/
abbrev State.Running (s : State) : Prop := s.halted = false ∧ s.fault = none

/-- The successful end of a run: HALTED with no fault recorded (R149, R172). -/
abbrev State.Succeeded (s : State) : Prop := s.halted = true ∧ s.fault = none

/-- A step is safe when it goes on and records no fault (R149). -/
def SafeStep (p : OpcodeParams) (s : State) : Prop := ∃ t, stepWith p s = .next t ∧ t.fault = none

/-- The register an operand byte names, none above 7 (R53). -/
def namedReg (b : Byte) : List RegIdx := if h : b.toNat < 8 then [⟨b.toNat, h⟩] else []

/-- The column "Writes" of R13. -/
def regsWritten (i : Instr) : List RegIdx :=
  match i with
  | .hlt => []
  | .ldi a _ => namedReg a
  | .prn _ => []
  | .add a _ => namedReg a
  | .mul a _ => namedReg a
  | .push _ => [7]
  | .pop a => 7 :: namedReg a
  | .call _ => [7]
  | .ret => [7]

/-- The column "Reads" of R13. -/
def regsRead (i : Instr) : List RegIdx :=
  match i with
  | .hlt => []
  | .ldi _ _ => []
  | .prn a => namedReg a
  | .add a b => namedReg a ++ namedReg b
  | .mul a b => namedReg a ++ namedReg b
  | .push a => 7 :: namedReg a
  | .pop _ => [7]
  | .call a => 7 :: namedReg a
  | .ret => [7]

/-- The cells an instruction may write (R33): PUSH and CALL write the one at the pointer after its decrement, computed as
`pushByte` computes it. -/
def cellsWritten (i : Instr) (s : State) : List Nat :=
  match i with
  | .push _ => [s.spDec.sp.toNat]
  | .call _ => [s.spDec.sp.toNat]
  | .hlt => []
  | .ldi _ _ => []
  | .prn _ => []
  | .add _ _ => []
  | .mul _ _ => []
  | .pop _ => []
  | .ret => []

/-- The amount an instruction that goes on in sequence advances pc by (R16); none for HLT, CALL and RET. -/
def pcStride (i : Instr) : Option Nat :=
  match i with
  | .hlt => none
  | .ldi _ _ => some 3
  | .prn _ => some 2
  | .add _ _ => some 3
  | .mul _ _ => some 3
  | .push _ => some 2
  | .pop _ => some 2
  | .call _ => none
  | .ret => none

/-- Is this PRN? -/
def isPrn (i : Instr) : Bool :=
  match i with
  | .prn _ => true
  | .hlt => false
  | .ldi _ _ => false
  | .add _ _ => false
  | .mul _ _ => false
  | .push _ => false
  | .pop _ => false
  | .call _ => false
  | .ret => false

/-- The one fault a step from a running state records, by the list of R148, first to last; none if the step is clean. -/
def firstFault (p : OpcodeParams) (s : State) : Option FaultRecord :=
  let at_ := s.pc.toNat
  if 253 < at_ then some (.outOfBounds 256)
  else match decode p (s.mem.read at_) (s.mem.read (at_ + 1)) (s.mem.read (at_ + 2)) with
    | .error _ => some (.unknownOpcode (s.mem.read at_) s.pc)
    | .ok i =>
      match i.regOperands.find? (fun b => decide (7 < b.toNat)) with
      | some b => some (.registerIndexOutOfRange b)
      | none =>
        if isPrn i && !s.outReady then some .outputUnavailable
        else if at_ = 253 ∧ pcStride i = some 3 then some (.outOfBounds 256)
        else none

/-- A balanced use of the stack (R122): nothing, or a push, a balanced use, the pop that matches the push, and a balanced use. -/
inductive StackUse where
  | done
  | nest (pushed popped : RegIdx) (inner rest : StackUse)
  deriving DecidableEq, Repr

/-- Its instructions in order. -/
def StackUse.code (u : StackUse) : List Instr :=
  match u with
  | .done => []
  | .nest a b inner rest => .push (regByte a) :: (inner.code ++ .pop (regByte b) :: rest.code)

/-- It does not name the stack pointer as an operand. -/
def StackUse.sparesSp (u : StackUse) : Bool :=
  match u with
  | .done => true
  | .nest a b inner rest => decide (a ≠ 7) && decide (b ≠ 7) && inner.sparesSp && rest.sparesSp

/-- Instructions executed one after the other, as long as each goes on. -/
def execAll (is : List Instr) (s : State) : Result :=
  match is with
  | [] => .next s
  | i :: rest =>
    match exec i s with
    | .next t => execAll rest t
    | .fault r => .fault r
    | .refused r => .refused r

/-- A fault record that agrees with the state it was recorded in (R141 to R145): what a FAULTED state says of the
instruction that faulted. -/
def FaultAgrees (p : OpcodeParams) (s : State) (f : FaultRecord) : Prop :=
  match f with
  | .outOfBounds addr => addr = 256 ∧ 253 ≤ s.pc.toNat
  | .unsupportedOperation _ => False
  | .unknownOpcode op at_ =>
    at_ = s.pc ∧ s.pc.toNat ≤ 253 ∧ s.mem.read s.pc.toNat = op ∧ op ∉ p.recognised
  | .registerIndexOutOfRange b =>
    7 < b.toNat ∧ s.pc.toNat ≤ 253 ∧ s.mem.read s.pc.toNat ∈ p.recognised ∧
      (s.mem.read (s.pc.toNat + 1) = b ∨ s.mem.read (s.pc.toNat + 2) = b)
  | .outputUnavailable =>
    s.outReady = false ∧ s.pc.toNat ≤ 253 ∧ s.mem.read s.pc.toNat = opcPrn

/-- The invariant: memory in canonical form; HALTED and FAULTED exclude each other (R19, R149); a recorded fault agrees with
the state. -/
def State.Inv (p : OpcodeParams) (s : State) : Prop :=
  s.mem.wf ∧ ∀ f, s.fault = some f → s.halted = false ∧ FaultAgrees p s f

end Sys2Proof.Machine
end

