-- ==== Sys2Proof/Certificates/Slice0/Obligations.lean ====
section
/-! DEFINITION. The statements for the provers. Each docstring says which rule of spec/ it formalises, or, for a derived one,
the sections it rests on and the model's or the spec's own choice in it. A register operand byte in range is written
`regByte a`, with `a` one of the eight indices: these are exactly the bytes 0 to 7. -/

open Sys2Proof Sys2Proof.Machine

/-! ## Reset, encoding, decoding -/

/-- The whole reset table of 10_state.md §7: every piece of state after reset, and that the run state is RUNNING. The
values of `fault` and `out` are inferences the spec marks as its own; `fault` as state is its choice D6, log 6,
`out` as 8-bit values D7, log 7, memory zeroed by every reset D12, log 12. -/
def Obligations.ResetGivesTheStatedValues : Prop :=
  (∀ i : RegIdx, State.reset.reg i = if i = 7 then 0xF4 else 0) ∧ State.reset.pc = 0 ∧
    (∀ a, State.reset.mem.read a = 0) ∧ State.reset.halted = false ∧ State.reset.fault = none ∧
    State.reset.out = [] ∧ State.reset.runState = .running

/-- Words of the source's example and of the families' default opcodes, as the table numbers their bits. The opcode
bytes but those of LDI, PRN and HLT are the default parameters (log 1, PRESUMED: general knowledge, D1). That a
word's lowest eight bits are the opcode byte and its later bits the operand bytes is the model's deduction, log 11
(DEDUCED). -/
def Obligations.SpecWordsDecodeAsListed : Prop :=
  decodeTableWord 24 0x080082 = some (.ldi 0 8) ∧ decodeTableWord 16 0x0047 = some (.prn 0) ∧
    decodeTableWord 8 0x01 = some .hlt ∧ decodeTableWord 24 0x0100A0 = some (.add 0 1) ∧
    decodeTableWord 24 0x0302A2 = some (.mul 2 3) ∧ decodeTableWord 16 0x0145 = some (.push 1) ∧
    decodeTableWord 16 0x0146 = some (.pop 1) ∧ decodeTableWord 16 0x0150 = some (.call 1) ∧
    decodeTableWord 8 0x11 = some .ret ∧ decodeTableWord 8 0x00 = none ∧ decodeTableWord 24 0x0101C1 = none

/-- Decode and encode agree: for any opcode parameters that meet R6, the bytes of any instruction, every operand byte at
every value, followed by any bytes, decode to that instruction and leave exactly the bytes after it (30_encoding.md
§1, §3). An operand byte above 7 in a register position decodes too, its check being part of execution (D2, log 2);
OPC_RET = 0x00 is among the parameters (log 21). -/
def Obligations.DecodingAnEncodedInstructionGivesItBack : Prop :=
  ∀ p : OpcodeParams, p.Valid → ∀ (i : Instr) (rest : List Byte),
    decodeStream p (encode p i ++ rest) = .ok (i, rest)

/-- The other direction: whatever decodes from three fetched bytes is encoded by a leading part of just those bytes, as
long as the opcode byte says (30_encoding.md §1; 40_core_units.md §3). An operand byte above 7 in a register
position decodes too (D2, log 2); OPC_RET = 0x00 is among the parameters (log 21). -/
def Obligations.EncodingADecodedInstructionGivesItsBytesBack : Prop :=
  ∀ p : OpcodeParams, p.Valid → ∀ (ir opa opb : Byte) (i : Instr),
    decode p ir opa opb = .ok i → encode p i = [ir, opa, opb].take (1 + ir.toNat / 64)

/-- R51: bits 7:6 of the opcode byte are the operand count, 0 to 2, of every recognised instruction, and a decoder takes the
length from the opcode byte alone. -/
def Obligations.OpcodeBitsGiveTheLength : Prop :=
  ∀ p : OpcodeParams, p.Valid →
    (∀ i : Instr, ∃ op ops, encode p i = op :: ops ∧ ops.length = op.toNat / 64 ∧ ops.length ≤ 2) ∧
    ∀ (bytes rest : List Byte) (i : Instr), decodeStream p bytes = .ok (i, rest) →
      ∃ op ops, bytes = op :: (ops ++ rest) ∧ ops.length = op.toNat / 64

/-- R55: an opcode byte selects an instruction only when all eight bits equal that instruction's value, and every other
byte selects none. -/
def Obligations.FullOpcodeByteSelectsTheInstruction : Prop :=
  ∀ p : OpcodeParams, p.Valid → ∀ ir opa opb : Byte,
    (∀ i : Instr, decode p ir opa opb = .ok i ↔
      (ir = 0x01 ∧ i = .hlt) ∨ (ir = 0x82 ∧ i = .ldi opa opb) ∨ (ir = 0x47 ∧ i = .prn opa) ∨
      (ir = p.add ∧ i = .add opa opb) ∨ (ir = p.mul ∧ i = .mul opa opb) ∨ (ir = p.push ∧ i = .push opa) ∨
      (ir = p.pop ∧ i = .pop opa) ∨ (ir = p.call ∧ i = .call opa) ∨ (ir = p.ret ∧ i = .ret)) ∧
    ∀ e, decode p ir opa opb = .error e ↔ e = .unknownOpcode ir ∧ ir ∉ p.recognised

/-- The bytes after an instruction's last byte have no part in it: with no operand byte neither following byte matters,
with one the second does not (30_encoding.md §4, the unused operand bytes of the three-byte fetch). OPC_RET = 0x00
is among the parameters (log 21). -/
def Obligations.TrailingBytesDoNotMatter : Prop :=
  ∀ p : OpcodeParams, p.Valid → ∀ ir a b a' b' : Byte,
    (ir.toNat / 64 = 0 → decode p ir a b = decode p ir a' b') ∧
    (ir.toNat / 64 = 1 → decode p ir a b = decode p ir a b')

/-! ## The step -/

/-- A step of a running core whose three fetched bytes decode to an instruction is exec of that instruction, with
nothing around it: no pc increment, no delay slot (40_core_units.md §1). The first clause takes the default opcodes
(D1, log 1, PRESUMED); that a step is one whole instruction is the spec's choice D8, log 8; that only pc up to 253
executes is D4, log 4. -/
def Obligations.StepRunsTheDecodedInstruction : Prop :=
  (∀ (s : State) (i : Instr), s.Running → s.pc.toNat ≤ 253 →
    decode defaultOpcodes (s.mem.read s.pc.toNat) (s.mem.read (s.pc.toNat + 1)) (s.mem.read (s.pc.toNat + 2)) = .ok i →
    step s = exec i s) ∧
  ∀ (p : OpcodeParams) (s : State) (i : Instr), s.Running → s.pc.toNat ≤ 253 →
    decode p (s.mem.read s.pc.toNat) (s.mem.read (s.pc.toNat + 1)) (s.mem.read (s.pc.toNat + 2)) = .ok i →
    stepWith p s = exec i s

/-- An instruction of a table word, placed where the core fetches, is the one the next step runs; the placing touches
only the three cells from pc (model's own operation, log 20). The word's byte numbering is the model's deduction,
log 11; the opcodes are the defaults, D1, log 1 (PRESUMED); the bound on pc is the spec's choice D4, log 4. -/
def Obligations.PlacedWordIsRunNext : Prop :=
  ∀ (s : State) (nbits w : Nat) (i : Instr), s.Running → s.pc.toNat ≤ 253 → decodeTableWord nbits w = some i →
    step (s.withFetchWord nbits w) = exec i (s.withFetchWord nbits w) ∧
    s.withFetchWord nbits w = { s with mem := (s.withFetchWord nbits w).mem } ∧
    ∀ a, a < s.pc.toNat ∨ s.pc.toNat + 2 < a → (s.withFetchWord nbits w).mem.read a = s.mem.read a

/-- The fetch reads three bytes whatever the instruction: at pc 254 and 255 every step faults with address 256 and
changes nothing else (40_core_units.md §2; the spec's own choice D4 and D16, log 4; taken as a next state, log 6).
The next state with the record is D6. -/
def Obligations.FetchPastTheTopFaults : Prop :=
  ∀ (p : OpcodeParams) (s : State), s.Running → 254 ≤ s.pc.toNat →
    stepWith p s = .next { s with fault := some (.outOfBounds 256) }

/-- An opcode byte that is none of the nine: the record holds the byte and pc, and nothing else changes
(60_exceptions.md §1; the record in a next state is the spec's choice D6, log 6). That pc 254 and 255 are left to
the fetch fault is D4, log 4. -/
def Obligations.UnknownOpcodeFaults : Prop :=
  ∀ (p : OpcodeParams) (s : State), s.Running → s.pc.toNat ≤ 253 → s.mem.read s.pc.toNat ∉ p.recognised →
    stepWith p s = .next { s with fault := some (.unknownOpcode (s.mem.read s.pc.toNat) s.pc) }

/-- A running core always has a step, never a refusal, and records exactly the first fault of the list of
60_exceptions.md §3, or none. The order of the list is the spec's choice D10, log 10. When each fault of the list is
raised is the spec's choice too: the fetch bounds D4 and D16 (log 4), the register byte D2 (log 2), the output D7
(log 7), the late OutOfBounds D3 (log 3); that a fault is a next state with a record is D6 (log 6). -/
def Obligations.StepRecordsTheFirstFaultInOrder : Prop :=
  ∀ (p : OpcodeParams) (s : State), s.Running → ∃ t, stepWith p s = .next t ∧ t.fault = firstFault p s

/-- What a faulting step leaves: nothing but the record, or, for the late OutOfBounds of a three-byte instruction at
253, its register write too (60_exceptions.md §4; that earlier writes stay is the spec's choice D6, log 6). Where
each fault stands in the step is the spec's choice too: D2 (log 2), D3 (log 3), D4 and D16 (log 4), D7 (log 7), D10
(log 10). -/
def Obligations.FaultedStepKeepsOnlyEarlierWrites : Prop :=
  ∀ (p : OpcodeParams) (s t : State) (f : FaultRecord), stepWith p s = .next t → t.fault = some f →
    t = { s with fault := some f } ∨
    (f = .outOfBounds 256 ∧ s.pc.toNat = 253 ∧ ∃ i a, fetchDecode p s = .ok i ∧ pcStride i = some 3 ∧
      regsWritten i = [a] ∧ t = { s.setReg a (t.reg a) with fault := some f })

/-- HALTED and FAULTED have no step (10_state.md §4; 60_exceptions.md §4; the outcome named for it is the model's
choice, log 14). FAULTED as a state is the spec's choice D6, log 6. -/
def Obligations.TerminalStatesHaveNoStep : Prop :=
  (∀ (p : OpcodeParams) (s : State), s.Succeeded → stepWith p s = .fault .halted) ∧
  ∀ (p : OpcodeParams) (s : State) (f : FaultRecord), s.fault = some f → stepWith p s = .fault (.faulted f)

/-- Of the running core's steps, those and only those that fetch HLT's byte at pc up to 253 halt (10_state.md §4). That
an HLT byte at 254 or 255 does not halt is the spec's choice D4, log 4 (40_core_units.md §2). That a faulting step
is a next state, not halted, is D6, log 6. -/
def Obligations.OnlyHltHalts : Prop :=
  ∀ (p : OpcodeParams) (s t : State), p.Valid → s.Running → stepWith p s = .next t →
    (t.halted = true ↔ s.pc.toNat ≤ 253 ∧ s.mem.read s.pc.toNat = 0x01)

/-- No instruction makes an UnsupportedOperation, though the ALU alone has it for every other operation
(40_core_units.md §5; the wider operation type is the choice D9 leaves to the model, log 9). The record in a next
state is the spec's choice D6, log 6. -/
def Obligations.NoInstructionRequestsAnUnsupportedOperation : Prop :=
  (∀ (n : Nat) (va vb : Byte), alu (.other n) va vb = .error (.unsupportedOperation (.other n))) ∧
  ∀ (i : Instr) (s t : State) (op : AluOp), exec i s = .next t →
    t.fault = some (.unsupportedOperation op) → s.fault = some (.unsupportedOperation op)

/-! ## Memory -/

/-- MemRead and MemWrite (20_memory.md §1): a read after a write to the same cell gives the value modulo 256, every
other cell reads as before, an address above 255 raises OutOfBounds with that address, and the address of a stack
write is always in range. Of the stack write: the spec marks that sentence of 20_memory.md section 1 as its own
inference from 10_state.md section 2 and 43_stack.md. That a cell holds a value before anything is written is the
reset content, D12, log 12. -/
def Obligations.MemoryReadsBackWhatWasWritten : Prop :=
  (∀ (m : Memory) (a v : Nat), a ≤ 255 → ∃ m', memWrite m a v = .ok m' ∧
    (∃ r, memRead m' a = .ok r ∧ r.toNat = v % 256) ∧ ∀ b, b ≠ a → memRead m' b = memRead m b) ∧
  (∀ (m : Memory) (a v : Nat), 255 < a →
    memRead m a = .error (.outOfBounds a) ∧ memWrite m a v = .error (.outOfBounds a)) ∧
  ∀ (s : State) (v : Nat), ∃ m, memWrite s.mem (s.reg 7).toNat v = .ok m

/-- Two memories in canonical form that read the same everywhere are the same data (the model's form of 20_memory.md
§1). That an unlisted cell reads 0 is the reset content, D12, log 12. -/
def Obligations.CanonicalMemoryIsItsContents : Prop :=
  ∀ m m' : Memory, m.wf → m'.wf → (∀ a, m.read a = m'.read a) → m = m'

/-- The load puts byte i at address i, leaves the cells past the program as they were (0 from reset), touches nothing
but memory, and rejects a program longer than 256 bytes (20_memory.md §5). Memory zeroed by reset is D12, log 12;
that the load comes before the first step is not checked, log 16. A longer program's rejection is D19, log 15. -/
def Obligations.LoadPlacesTheProgramFromAddressZero : Prop :=
  (∀ (bytes : List Byte) (s : State), bytes.length ≤ 256 → ∃ t, load bytes s = some t ∧
    t = { s with mem := t.mem } ∧ (∀ i, i < bytes.length → t.mem.read i = bytes.getD i 0) ∧
    ∀ i, bytes.length ≤ i → t.mem.read i = s.mem.read i) ∧
  (∀ (bytes : List Byte) (s : State), 256 < bytes.length → load bytes s = none) ∧
  ∀ a, State.reset.mem.read a = 0

/-- A byte that PUSH or CALL writes at the address the next step fetches from is the opcode byte that step fetches
(20_memory.md §4, instruction-fetch coherence; opcodes of D1, log 1). Register 7 is included: the byte PUSH R7
writes and the target of CALL R7, which always meets the second clause's hypothesis, are the spec's choice D5, log 5
(unsafe). The coherence rule is marked by the spec as its own inference; the bounds on pc and pointer are D4, log 4.
-/
def Obligations.NextFetchSeesAPushedByte : Prop :=
  (∀ (s : State) (a : RegIdx), s.Running → s.pc.toNat ≤ 251 → s.mem.read s.pc.toNat = defaultOpcodes.push →
    s.mem.read (s.pc.toNat + 1) = regByte a → s.spDec.sp.toNat = s.pc.toNat + 2 →
    ∃ t opa opb, step s = .next t ∧ t.Running ∧ fetch t = .ok (s.spDec.reg a, opa, opb)) ∧
  ∀ (s : State) (a : RegIdx), s.Running → s.pc.toNat ≤ 253 → s.mem.read s.pc.toNat = defaultOpcodes.call →
    s.mem.read (s.pc.toNat + 1) = regByte a → s.spDec.reg a = s.spDec.sp → s.spDec.sp.toNat ≤ 253 →
    ∃ t opa opb, step s = .next t ∧ t.Running ∧ fetch t = .ok (s.pc + 2, opa, opb)

/-! ## The units -/

/-- R77: the pointer moves by one modulo 256 and no other register moves; a push is decrement then write, a pop is read then
increment; neither ever takes a fault; the cell is 0xF4 after reset. -/
def Obligations.StackPointerUnitPushesAndPops : Prop :=
  (∀ s : State, (s.spDec.reg 7).toNat = ((s.reg 7).toNat + 255) % 256 ∧
    (s.spInc.reg 7).toNat = ((s.reg 7).toNat + 1) % 256 ∧ s.sp = s.reg 7 ∧
    ∀ i : RegIdx, i ≠ 7 → s.spDec.reg i = s.reg i ∧ s.spInc.reg i = s.reg i) ∧
  (∀ (s : State) (v : Nat), ∃ t, (∀ k, pushByte (fun _ => v) s k = k t) ∧ t.x = s.spDec.x ∧
    (t.mem.read (t.reg 7).toNat).toNat = v % 256 ∧
    ∀ a, a ≠ (t.reg 7).toNat → t.mem.read a = s.mem.read a) ∧
  (∀ s : State, ∃ t, (∀ k, popByte (fun _ t => t) s k = k (s.mem.read (s.reg 7).toNat) t) ∧ t.x = s.spInc.x ∧
    t.mem = s.mem) ∧
  State.reset.reg 7 = 0xF4

/-- Sum and product are the exact results reduced modulo 256, without fault and the same read as two's complement (which
the spec marks as derived); the other reductions modulo 256 are those of the stack pointer and of a memory write;
any other operation is UnsupportedOperation, and no step ends in it (42_alu.md, the laws of the arithmetic). That
another operation can be asked for at all is the model's choice, left to it by D9, log 9. That a fault would be a
record in a next state is D6, log 6. -/
def Obligations.ArithmeticIsExactModulo256 : Prop :=
  (∀ va vb : Byte, ∃ r, alu .add va vb = .ok r ∧ r.toNat = (va.toNat + vb.toNat) % 256 ∧
    r.toInt = (va.toInt + vb.toInt).bmod 256) ∧
  (∀ va vb : Byte, ∃ r, alu .mul va vb = .ok r ∧ r.toNat = (va.toNat * vb.toNat) % 256 ∧
    r.toInt = (va.toInt * vb.toInt).bmod 256) ∧
  (∀ s : State, (s.spDec.reg 7).toNat = ((s.reg 7).toNat + 255) % 256 ∧
    (s.spInc.reg 7).toNat = ((s.reg 7).toNat + 1) % 256) ∧
  (∀ (m m' : Memory) (a v : Nat), memWrite m a v = .ok m' → (m'.read a).toNat = v % 256) ∧
  (∀ (n : Nat) (va vb : Byte), alu (.other n) va vb = .error (.unsupportedOperation (.other n))) ∧
  ∀ (p : OpcodeParams) (s t : State) (op : AluOp), stepWith p s = .next t →
    t.fault ≠ some (.unsupportedOperation op)

/-! ## What each instruction does -/

/-- HLT, in every state: halted, pc at the HLT byte, and a running core that fetches it ends its run there
(41_system_and_data.md; pc after HLT is the spec's choice D17, log 13; the outcome of a step in HALTED is log 14).
The first clause holds in states no step executes in too (log 19); the bound on pc in the second is D4, log 4. -/
def Obligations.HltHaltsAndEndsTheRun : Prop :=
  (∀ s : State, ∃ t, exec .hlt s = .next t ∧ t.halted = true ∧ t.pc = s.pc ∧ t.fault = s.fault ∧ t.x = s.x ∧
    t.mem = s.mem ∧ t.out = s.out) ∧
  ∀ s : State, s.Running → s.pc.toNat ≤ 253 → s.mem.read s.pc.toNat = 0x01 →
    ∃ t, step s = .next t ∧ t.Succeeded ∧ t.pc = s.pc ∧ step t = .fault .halted

/-- LDI completes wherever pc + 3 is an address: the register becomes the immediate, any of the 256, register 7 included
(41_system_and_data.md; register 7 unprotected: D18, log 17). It holds in every state that meets its hypotheses,
those no step executes in included (log 19). -/
def Obligations.LdiLoadsTheImmediate : Prop :=
  ∀ (a : RegIdx) (imm : Byte) (s : State), s.pc.toNat + 3 ≤ 255 →
    ∃ t, exec (.ldi (regByte a) imm) s = .next t ∧ t.reg a = imm ∧ t.pc.toNat = s.pc.toNat + 3 ∧ t.fault = s.fault

/-- PRN completes when the output stream can take a value: the register's value is appended (41_system_and_data.md; the
8-bit value and `out_ready` are the spec's choice D7, log 7). Register 7 is included, unprotected (D18, log 17). It
holds in every state that meets its hypotheses, those no step executes in included (log 19). -/
def Obligations.PrnEmitsTheRegister : Prop :=
  ∀ (a : RegIdx) (s : State), s.outReady = true → s.pc.toNat + 2 ≤ 255 →
    ∃ t, exec (.prn (regByte a)) s = .next t ∧ t.out = s.out ++ [s.reg a] ∧ t.pc.toNat = s.pc.toNat + 2 ∧
      t.fault = s.fault

/-- PRN with the output stream unavailable takes the fault and nothing is emitted (the spec's choice D7, log 7). The
fault as a next state is D6, log 6, its place before the pc check D10, log 10; register 7 is included (D18, log 17).
It holds in every state that meets its hypotheses, those no step executes in included (log 19). -/
def Obligations.PrnFaultsWhenOutputIsUnavailable : Prop :=
  ∀ (a : RegIdx) (s : State), s.outReady = false →
    exec (.prn (regByte a)) s = .next { s with fault := some .outputUnavailable }

/-- ADD completes wherever pc + 3 is an address: the first register becomes the sum modulo 256, both sources read before
it is written, any two registers, the same twice included (42_alu.md). With one register twice both reads see the
old value (D5, log 5). Register 7 is included, unprotected (D18, log 17). It holds in every state that meets its
hypotheses, those no step executes in included (log 19). -/
def Obligations.AddWritesTheSumModulo256 : Prop :=
  ∀ (a b : RegIdx) (s : State), s.pc.toNat + 3 ≤ 255 →
    ∃ t, exec (.add (regByte a) (regByte b)) s = .next t ∧
      (t.reg a).toNat = ((s.reg a).toNat + (s.reg b).toNat) % 256 ∧ t.pc.toNat = s.pc.toNat + 3 ∧ t.fault = s.fault

/-- MUL completes wherever pc + 3 is an address: the first register becomes the product modulo 256 (42_alu.md). With one
register twice both reads see the old value (D5, log 5). Register 7 is included, unprotected (D18, log 17). It holds
in every state that meets its hypotheses, those no step executes in included (log 19). -/
def Obligations.MulWritesTheProductModulo256 : Prop :=
  ∀ (a b : RegIdx) (s : State), s.pc.toNat + 3 ≤ 255 →
    ∃ t, exec (.mul (regByte a) (regByte b)) s = .next t ∧
      (t.reg a).toNat = ((s.reg a).toNat * (s.reg b).toNat) % 256 ∧ t.pc.toNat = s.pc.toNat + 3 ∧ t.fault = s.fault

/-- LDI, ADD and MUL where pc + 3 is no address: the register is written, OutOfBounds holds the sum, pc keeps its value
(10_state.md §3, 40_core_units.md §7; the spec's choice D3, log 3, and D6, log 6). With one register twice both
reads see the old value (D5, log 5); register 7 is included (D18, log 17). A step executes this at pc 253 only; at
254 and 255 it is log 19. -/
def Obligations.LateOutOfBoundsKeepsTheRegisterWrite : Prop :=
  ∀ (a b : RegIdx) (imm : Byte) (s : State), 255 < s.pc.toNat + 3 →
    exec (.ldi (regByte a) imm) s =
      .next { s.setReg a imm with fault := some (.outOfBounds (s.pc.toNat + 3)) } ∧
    exec (.add (regByte a) (regByte b)) s =
      .next { s.setReg a (s.reg a + s.reg b) with fault := some (.outOfBounds (s.pc.toNat + 3)) } ∧
    exec (.mul (regByte a) (regByte b)) s =
      .next { s.setReg a (s.reg a * s.reg b) with fault := some (.outOfBounds (s.pc.toNat + 3)) }

/-- PUSH completes wherever pc + 2 is an address: the pointer goes down by one modulo 256 and the cell it then addresses
holds the register's value, for register 7 the decremented pointer (43_stack.md; register 7: D5, log 5). It holds in
every state that meets its hypotheses, those no step executes in included (log 19). -/
def Obligations.PushStoresBelowTheStackPointer : Prop :=
  ∀ (a : RegIdx) (s : State), s.pc.toNat + 2 ≤ 255 →
    ∃ t, exec (.push (regByte a)) s = .next t ∧ (t.reg 7).toNat = ((s.reg 7).toNat + 255) % 256 ∧
      t.mem.read (t.reg 7).toNat = (if a = 7 then t.reg 7 else s.reg a) ∧ t.pc.toNat = s.pc.toNat + 2 ∧
      t.fault = s.fault

/-- POP completes wherever pc + 2 is an address: the register gets the byte at the pointer and the pointer goes up by
one modulo 256, for register 7 the popped byte plus 1 (43_stack.md; register 7: D5, log 5). It holds in every state
that meets its hypotheses, those no step executes in included (log 19). -/
def Obligations.PopLoadsFromTheStackPointer : Prop :=
  ∀ (a : RegIdx) (s : State), s.pc.toNat + 2 ≤ 255 →
    ∃ t, exec (.pop (regByte a)) s = .next t ∧
      (a ≠ 7 → t.reg a = s.mem.read (s.reg 7).toNat ∧ (t.reg 7).toNat = ((s.reg 7).toNat + 1) % 256) ∧
      (a = 7 → (t.reg 7).toNat = ((s.mem.read (s.reg 7).toNat).toNat + 1) % 256) ∧
      t.pc.toNat = s.pc.toNat + 2 ∧ t.fault = s.fault

/-- CALL completes in every state: the pointer down by one, pc + 2 stored modulo 256 where it then points, pc at the
register's value, for register 7 at the decremented pointer (44_call_return.md; register 7: D5, log 5; no step executes
at a pc above 253, log 19). Register 7 as the operand is the spec's choice D5, log 5 (unsafe). -/
def Obligations.CallPushesTheReturnAddressAndTransfers : Prop :=
  ∀ (a : RegIdx) (s : State),
    ∃ t, exec (.call (regByte a)) s = .next t ∧ (t.reg 7).toNat = ((s.reg 7).toNat + 255) % 256 ∧
      (t.mem.read (t.reg 7).toNat).toNat = (s.pc.toNat + 2) % 256 ∧
      t.pc = (if a = 7 then t.reg 7 else s.reg a) ∧ t.fault = s.fault

/-- RET completes in every state: pc becomes the byte at the pointer, whoever put it there, and the pointer goes up by
one (44_call_return.md). States no step executes in are included (log 19). -/
def Obligations.RetTransfersToThePoppedByte : Prop :=
  ∀ s : State, ∃ t, exec .ret s = .next t ∧ t.pc = s.mem.read (s.reg 7).toNat ∧
    (t.reg 7).toNat = ((s.reg 7).toNat + 1) % 256 ∧ t.fault = s.fault

/-- A register operand byte above 7, in any of the seven instructions that have one: the record holds the byte, operand
a before operand b, and nothing else changes (30_encoding.md §2; the spec's choice D2, log 2, order D10, log 10).
The fault as a next state is D6, log 6. It holds in every state that meets its hypotheses, those no step executes in
included (log 19). -/
def Obligations.RegisterByteAboveSevenFaults : Prop :=
  ∀ (b : Byte) (s : State), 7 < b.toNat →
    (∀ c : Byte, exec (.ldi b c) s = .next { s with fault := some (.registerIndexOutOfRange b) } ∧
      exec (.add b c) s = .next { s with fault := some (.registerIndexOutOfRange b) } ∧
      exec (.mul b c) s = .next { s with fault := some (.registerIndexOutOfRange b) }) ∧
    (∀ a : RegIdx, exec (.add (regByte a) b) s = .next { s with fault := some (.registerIndexOutOfRange b) } ∧
      exec (.mul (regByte a) b) s = .next { s with fault := some (.registerIndexOutOfRange b) }) ∧
    exec (.prn b) s = .next { s with fault := some (.registerIndexOutOfRange b) } ∧
    exec (.push b) s = .next { s with fault := some (.registerIndexOutOfRange b) } ∧
    exec (.pop b) s = .next { s with fault := some (.registerIndexOutOfRange b) } ∧
    exec (.call b) s = .next { s with fault := some (.registerIndexOutOfRange b) }

/-! ## Frames, for all nine instructions and every operand byte -/

/-- No instruction changes a register but those its row writes (the column "Writes" of the table in 10_state.md §2). A
register byte above 7 names no register and faults (D2, log 2); a fault is a next state (D6, log 6); register 7 may
be any operand (D18, log 17). It holds in every state that meets its hypotheses, those no step executes in included
(log 19). -/
def Obligations.RegistersOutsideTheWriteColumnAreUnchanged : Prop :=
  ∀ (i : Instr) (s t : State), exec i s = .next t → ∀ r : RegIdx, r ∉ regsWritten i → t.reg r = s.reg r

/-- No instruction depends on a register its row does not read: another value there changes nothing but that register,
and not even that one where the row overwrites it (the column "Reads" of the table in 10_state.md §2). A register
byte above 7 names no register and faults (D2, log 2); a fault is a next state (D6, log 6); register 7 may be any
operand (D18, log 17). It holds in every state that meets its hypotheses, those no step executes in included (log
19). -/
def Obligations.RegistersOutsideTheReadColumnDoNotMatter : Prop :=
  ∀ (i : Instr) (s t : State) (r : RegIdx) (v : Byte), exec i s = .next t → r ∉ regsRead i →
    exec i (s.setReg r v) = .next (if r ∈ regsWritten i then t else t.setReg r v)

/-- No instruction changes a byte of memory, but PUSH and CALL the one at the pointer after its decrement (20_memory.md
§1; nothing at all for the other seven). A fault is a next state (D6, log 6). It holds in every state that meets its
hypotheses, those no step executes in included (log 19). -/
def Obligations.MemoryOutsideThePushedCellIsUnchanged : Prop :=
  ∀ (i : Instr) (s t : State), exec i s = .next t → ∀ a, a ∉ cellsWritten i s → t.mem.read a = s.mem.read a

/-- The rest of the state: only HLT changes the halt flag, only PRN the output, nothing the input `out_ready`, and a
step that changes the fault record leaves pc (10_state.md §4; fault entry: D6, log 6). That `out_ready` is an input
held in State and written by no step is D7, log 7; that a fault of any kind keeps pc is D2, log 2, and D3, log 3,
too. It holds in every state that meets its hypotheses, those no step executes in included (log 19). -/
def Obligations.ControlStateIsUnchangedOutsideItsInstructions : Prop :=
  ∀ (i : Instr) (s t : State), exec i s = .next t →
    (i ≠ .hlt → t.halted = s.halted) ∧ ((∀ r, i ≠ .prn r) → t.out = s.out) ∧ t.outReady = s.outReady ∧
    (t.fault = s.fault ∨ t.pc = s.pc)

/-! ## The machine as a whole -/

/-- How pc changes: by the length in sequence, to the register's value for CALL, to the popped byte for RET, not at all
for HLT (D17, log 13) and not at all on a fault (D6, log 6) (10_state.md §3). CALL R7 is included: that it goes to
the decremented pointer, t.pc = t.reg 7, is the spec's choice D5, log 5 (unsafe). No wrap and pc kept by the late
OutOfBounds are D3, log 3. It holds in every state that meets its hypotheses, those no step executes in included
(log 19). -/
def Obligations.PcMovesAsTheTableSays : Prop :=
  ∀ (i : Instr) (s t : State), s.fault = none → exec i s = .next t →
    (t.fault ≠ none → t.pc = s.pc) ∧
    (t.fault = none → ∀ n, pcStride i = some n → t.pc.toNat = s.pc.toNat + n) ∧
    (i = .hlt → t.pc = s.pc) ∧
    (∀ r : RegIdx, i = .call (regByte r) → t.pc = t.reg r) ∧
    (i = .ret → t.pc = s.mem.read (s.reg 7).toNat)

/-- The output stream: an instruction appends at most one value, PRN alone the register's, and no instruction's effect
depends on what was emitted before (10_state.md §5; the 8-bit value is D7, log 7). PRN R7 is included (D18, log 17);
an instruction that faults is a next state with nothing emitted (D2, D6, logs 2 and 6). It holds in every state that
meets its hypotheses, those no step executes in included (log 19). -/
def Obligations.OutputIsAppendedByPrnAndNeverRead : Prop :=
  ∀ (i : Instr) (s t : State), exec i s = .next t →
    ∃ e, t.out = s.out ++ e ∧ (e = [] ∨ ∃ r : RegIdx, i = .prn (regByte r) ∧ e = [s.reg r]) ∧
      ∀ o : List Byte, exec i { s with out := o } = .next { t with out := o ++ e }

/-- The stack discipline (43_stack.md, shared by PUSH, POP, CALL and RET): after a push, which wraps and never faults of
itself, the pointer is at the pushed value; a balanced use that does not name register 7 leaves the pointer where it
was; a push, such a use and a pop give the value back, and two values come back in reverse order; CALL and RET share
the discipline, so a RET takes a pushed byte and a POP a return address; from reset the first push lands at 243. The
value PUSH R7 pushes (first clause) and where CALL R7 goes are the spec's choice D5, log 5 (unsafe). The clauses are
about exec one after the other, no fetch between, in any state (log 19); PUSH at pc 254 or 255, which no step
executes, keeps its write and faults (D3, D6, logs 3 and 6). -/
def Obligations.StackIsLastInFirstOut : Prop :=
  (∀ (a : RegIdx) (s t : State), exec (.push (regByte a)) s = .next t →
    t.mem.read (t.reg 7).toNat = s.spDec.reg a ∧ (t.reg 7).toNat = ((s.reg 7).toNat + 255) % 256 ∧
    (s.pc.toNat + 2 ≤ 255 → t.fault = s.fault)) ∧
  (∀ (u : StackUse) (s : State), u.sparesSp = true → s.pc.toNat + 2 * u.code.length ≤ 255 →
    ∃ t, execAll u.code s = .next t ∧ t.reg 7 = s.reg 7 ∧ t.fault = s.fault) ∧
  (∀ (a b : RegIdx) (u : StackUse) (s : State), a ≠ 7 → b ≠ 7 → u.sparesSp = true →
    s.pc.toNat + 2 * (u.code.length + 2) ≤ 255 →
    ∃ t, execAll (.push (regByte a) :: (u.code ++ [.pop (regByte b)])) s = .next t ∧ t.reg b = s.reg a ∧
      t.reg 7 = s.reg 7) ∧
  (∀ (a b c d : RegIdx) (s : State), a ≠ 7 → b ≠ 7 → c ≠ 7 → d ≠ 7 → c ≠ d → s.pc.toNat + 8 ≤ 255 →
    ∃ t, execAll [.push (regByte a), .push (regByte b), .pop (regByte c), .pop (regByte d)] s = .next t ∧
      t.reg c = s.reg b ∧ t.reg d = s.reg a) ∧
  (∀ (a : RegIdx) (s : State), a ≠ 7 → s.pc.toNat + 2 ≤ 255 →
    ∃ t, execAll [.push (regByte a), .ret] s = .next t ∧ t.pc = s.reg a ∧ t.reg 7 = s.reg 7) ∧
  (∀ (a b : RegIdx) (s : State), b ≠ 7 → s.pc.toNat ≤ 253 → (s.spDec.reg a).toNat ≤ 253 →
    ∃ t, execAll [.call (regByte a), .pop (regByte b)] s = .next t ∧
      (t.reg b).toNat = s.pc.toNat + 2 ∧ t.reg 7 = s.reg 7) ∧
  ∀ a : RegIdx, ∃ t, exec (.push (regByte a)) State.reset = .next t ∧ (t.reg 7).toNat = 243

/-- A RET that finds the pointer and the byte under it as a CALL left them resumes at the CALL's address plus 2, the
pointer back where it was, for any target register (44_call_return.md, control transfer as a whole). The statement
is about exec, in states no step executes in too (log 19); where CALL R7 goes has no part in it. -/
def Obligations.RetResumesAfterItsCall : Prop :=
  ∀ (a : RegIdx) (s : State), s.pc.toNat ≤ 253 →
    ∃ t, exec (.call (regByte a)) s = .next t ∧
      ∀ u : State, u.reg 7 = t.reg 7 → u.mem.read (u.reg 7).toNat = t.mem.read (t.reg 7).toNat →
        ∃ w, exec .ret u = .next w ∧ w.pc.toNat = s.pc.toNat + 2 ∧ w.reg 7 = s.reg 7

/-- The reset state meets the invariant and can run, for any opcode parameters. The reset memory is D12, log 12; the
fault record as state D6, log 6 (10_state.md §7). -/
def Obligations.ResetMeetsTheInvariant : Prop :=
  ∀ p : OpcodeParams, State.reset.Inv p ∧ State.reset.Running

/-- The launch state of every program the host may load meets the invariant and can run (70_reset_and_hazards.md §1).
Memory zeroed by reset is D12, log 12; a longer program is not loaded, D19, log 15; the host's moves come before the
first step, log 16; the fault record as state is D6, log 6. -/
def Obligations.LaunchMeetsTheInvariant : Prop :=
  ∀ (p : OpcodeParams) (bytes : List Byte) (s : State), load bytes State.reset = some s → s.Inv p ∧ s.Running

/-- Every step keeps the invariant, from every state that has it: memory canonical and inside the 256 cells, HALTED and
FAULTED exclusive, a recorded fault in agreement with the state (10_state.md §4, 60_exceptions.md §1 and §4; the
fault record as state is the spec's choice D6, log 6). What a record agrees with rests on when each fault is raised:
D2 (log 2), D3 (log 3), D4 and D16 (log 4), D7 (log 7), D9 (log 9); the memory form on D12, log 12; the second
clause takes the default opcodes (D1, log 1). -/
def Obligations.EveryStepKeepsTheInvariant : Prop :=
  (∀ (p : OpcodeParams) (s t : State), s.Inv p → stepWith p s = .next t → t.Inv p) ∧
  ∀ s t : State, s.Inv defaultOpcodes → step s = .next t → t.Inv defaultOpcodes
end

