-- ==== Sys2Proof/Tests/Slice0.lean ====
section
/-! SUPPORT. Tests. Expected values are those of spec/95_test_vectors.md (V, E, A numbers), 30_encoding.md and
opcode_table.json; the witnesses at the end show that the hypotheses of each statement can be met, clause by clause. -/

namespace Sys2Proof.Tests

open Sys2Proof Sys2Proof.Machine

/-- The next state of an outcome. -/
def nextOf (r : Result) : Option State :=
  match r with
  | .next s => some s
  | .fault _ => none
  | .refused _ => none

/-- The fault a step stops with. -/
def stopOf (r : Result) : Option Fault :=
  match r with
  | .fault f => some f
  | .next _ => none
  | .refused _ => none

/-- Reset with a program's bytes at pc. -/
def at_ (pc : Byte) (bytes : List Byte) : State :=
  { State.reset with pc := pc, mem := Memory.writeBytes [] pc.toNat bytes }

/-! ## WellFormed (30_encoding.md R53) -/

theorem test_wellformed_refuses_ldi_8 : (Instr.ldi 8 1).wellFormed = false := by decide
theorem test_wellformed_refuses_prn_255 : (Instr.prn 255).wellFormed = false := by decide
theorem test_wellformed_refuses_add_first : (Instr.add 8 0).wellFormed = false := by decide
theorem test_wellformed_refuses_add_second : (Instr.add 0 9).wellFormed = false := by decide
theorem test_wellformed_refuses_mul_both : (Instr.mul 10 11).wellFormed = false := by decide
theorem test_wellformed_refuses_push_8 : (Instr.push 8).wellFormed = false := by decide
theorem test_wellformed_refuses_pop_8 : (Instr.pop 8).wellFormed = false := by decide
theorem test_wellformed_refuses_call_9 : (Instr.call 9).wellFormed = false := by decide
theorem test_wellformed_admits_any_immediate : (Instr.ldi 7 255).wellFormed = true := by decide
theorem test_wellformed_admits_no_operand : Instr.hlt.wellFormed && Instr.ret.wellFormed = true := by decide

/-! ## Decoding, each word bit by bit from R54 -/

/-- R6: the defaults meet the constraints. -/
theorem test_default_opcodes_valid : defaultOpcodes.Valid := by decide
/-- E5, bytes 1 to 3. -/
theorem test_decode_ldi : decode defaultOpcodes 0b10000010 0b00000000 0b00001000 = .ok (.ldi 0 8) := rfl
/-- E5, bytes 4 and 5; byte 6 is ignored. -/
theorem test_decode_prn : decode defaultOpcodes 0b01000111 0b00000000 0b00000001 = .ok (.prn 0) := rfl
/-- E5, byte 6. -/
theorem test_decode_hlt : decode defaultOpcodes 0b00000001 0b10000010 0b00000000 = .ok .hlt := rfl
theorem test_decode_add : decode defaultOpcodes 0b10100000 0b00000000 0b00000001 = .ok (.add 0 1) := rfl
theorem test_decode_mul : decode defaultOpcodes 0b10100010 0b00000011 0b00000010 = .ok (.mul 3 2) := rfl
theorem test_decode_push : decode defaultOpcodes 0b01000101 0b00000111 0b00000000 = .ok (.push 7) := rfl
theorem test_decode_pop : decode defaultOpcodes 0b01000110 0b00000001 0b00000000 = .ok (.pop 1) := rfl
theorem test_decode_call : decode defaultOpcodes 0b01010000 0b00000001 0b00000000 = .ok (.call 1) := rfl
theorem test_decode_ret : decode defaultOpcodes 0b00010001 0b00000000 0b00000000 = .ok .ret := rfl
/-- V5. -/
theorem test_decode_refuses_07 : decode defaultOpcodes 0x07 0 0 = .error (.unknownOpcode 0x07) := rfl
/-- V4. -/
theorem test_decode_refuses_83 : decode defaultOpcodes 0x83 0 0 = .error (.unknownOpcode 0x83) := rfl
/-- 95_test_vectors.md Part 2: exactly nine legal opcode bytes. -/
theorem test_nine_opcodes :
    (List.range 256).filter (fun b => (decodeTableWord 24 b).isSome)
      = [0x01, 0x11, 0x45, 0x46, 0x47, 0x50, 0x82, 0xA0, 0xA2] := by decide
/-- R61: operand order of the bytes. -/
theorem test_encode_add : encode defaultOpcodes (.add 2 3) = [0xA0, 2, 3] := by decide
theorem test_stream_truncated : decodeStream defaultOpcodes [0x82, 0x00] = .error .truncated := rfl
theorem test_stream_rest : decodeStream defaultOpcodes [0x82, 0, 8, 0x47, 0] = .ok (.ldi 0 8, [0x47, 0]) := rfl

/-! ## One step, from the vectors -/

/-- V1, R45: from reset with nothing loaded the core meets 0x00. -/
theorem test_step_reset_unknown : (nextOf (step State.reset)).bind (·.fault) = some (.unknownOpcode 0 0) := by decide
/-- V6. -/
theorem test_hlt_at_253 : (nextOf (step (at_ 253 [0x01]))).map (fun t => (t.halted, t.pc)) = some (true, 253) := by decide
/-- V7, V8: not halted. -/
theorem test_hlt_at_254 :
    (nextOf (step (at_ 254 [0x01]))).map (fun t => (t.halted, t.fault)) = some (false, some (.outOfBounds 256)) := by decide
/-- V9: the fetch comes before the decoder. -/
theorem test_fault_order : (nextOf (step (at_ 254 [0xFF]))).bind (·.fault) = some (.outOfBounds 256) := by decide
/-- R19: HALTED has no step. -/
theorem test_halted_has_no_step : stopOf (step { State.reset with halted := true }) = some .halted := by decide
/-- R149: FAULTED has no step. -/
theorem test_faulted_has_no_step :
    stopOf (step { State.reset with fault := some .outputUnavailable }) = some (.faulted .outputUnavailable) := by decide
/-- V13: LDI moves the stack pointer. -/
theorem test_ldi_r7 : (nextOf (step (at_ 0 [0x82, 7, 0x10]))).map (fun t => (t.reg 7, t.pc)) = some (16, 3) := by decide
/-- V16: the write stays, pc stays. -/
theorem test_ldi_late_fault :
    (nextOf (step (at_ 253 [0x82, 1, 7]))).map (fun t => (t.reg 1, t.pc, t.fault))
      = some (7, 253, some (.outOfBounds 256)) := by decide
/-- V18. -/
theorem test_prn_r7 : (nextOf (step (at_ 3 [0x47, 7]))).map (fun t => (t.out, t.pc)) = some ([244], 5) := by decide
/-- V21. -/
theorem test_prn_unavailable :
    (nextOf (step { at_ 3 [0x47, 0] with outReady := false })).map (fun t => (t.out, t.pc, t.fault))
      = some ([], 3, some .outputUnavailable) := by decide
/-- V28. -/
theorem test_add_wraps :
    (nextOf (exec (.add 0 1) { State.reset with x := #v[200, 100, 0, 0, 0, 0, 0, 244] })).map (fun t => (t.reg 0, t.reg 1))
      = some (44, 100) := by decide
/-- V31: ADD R7, R0. -/
theorem test_add_r7 :
    (nextOf (exec (.add 7 0) { State.reset with x := #v[20, 0, 0, 0, 0, 0, 0, 244] })).map (·.reg 7) = some 8 := by decide
/-- V37, the source's example. -/
theorem test_mul_source :
    (nextOf (exec (.mul 0 1) { State.reset with x := #v[200, 200, 0, 0, 0, 0, 0, 244] })).map (·.reg 0) = some 64 := by decide
/-- V47: operand a is checked first. -/
theorem test_mul_operand_a_first :
    (nextOf (step (at_ 0 [0xA2, 0x0A, 0x0B]))).bind (·.fault) = some (.registerIndexOutOfRange 10) := by decide
/-- V51: the push overwrites the PUSH opcode itself, after its fetch. -/
theorem test_push_over_itself :
    (nextOf (step { at_ 0 [0x45, 0] with x := #v[9, 0, 0, 0, 0, 0, 0, 1] })).map (fun t => (t.reg 7, t.mem.read 0, t.pc))
      = some (0, 9, 2) := by decide
/-- V52: PUSH R7. -/
theorem test_push_r7 :
    (nextOf (step (at_ 0 [0x45, 7]))).map (fun t => (t.reg 7, t.mem.read 243)) = some (243, 243) := by decide
/-- V55: the pointer wraps. -/
theorem test_pop_wraps :
    (nextOf (exec (.pop 1) { State.reset with x := #v[0, 0, 0, 0, 0, 0, 0, 255], mem := [(255, 7)] })).map
      (fun t => (t.reg 1, t.reg 7)) = some (7, 0) := by decide
/-- V57: POP R7. -/
theorem test_pop_r7 :
    (nextOf (exec (.pop 7) { State.reset with x := #v[0, 0, 0, 0, 0, 0, 0, 243], mem := [(243, 64)] })).map (·.reg 7)
      = some 65 := by decide
/-- V62: the largest return address. -/
theorem test_call_at_253 :
    (nextOf (step { at_ 253 [0x50, 3] with x := #v[0, 0, 0, 100, 0, 0, 0, 10] })).map
      (fun t => (t.reg 7, t.mem.read 9, t.pc)) = some (9, 255, 100) := by decide
/-- V63: CALL R7. -/
theorem test_call_r7 :
    (nextOf (step (at_ 0 [0x50, 7]))).map (fun t => (t.reg 7, t.mem.read 243, t.pc)) = some (243, 2, 243) := by decide
/-- V66: the cell keeps its value. -/
theorem test_ret :
    (nextOf (exec .ret { State.reset with x := #v[0, 0, 0, 0, 0, 0, 0, 243], mem := [(243, 8)], pc := 22 })).map
      (fun t => (t.pc, t.reg 7, t.mem)) = some (8, 244, [(243, 8)]) := by decide
/-- V67: a RET with nothing pushed. -/
theorem test_ret_from_reset : (nextOf (exec .ret State.reset)).map (fun t => (t.pc, t.reg 7)) = some (0, 245) := by decide
/-- R63: the fallback program is `LDI R0, 8; PRN R0; HLT`. -/
theorem test_fallback_program :
    fallbackProgram = encode defaultOpcodes (.ldi 0 8) ++ encode defaultOpcodes (.prn 0) ++ encode defaultOpcodes .hlt := by
  decide
/-- R32, the canonical form: writing what an unlisted cell reads as removes the entry. -/
theorem test_write_zero_removes : Memory.write [(3, 1), (9, 2)] 3 0 = [(9, 2)] := by decide
/-- A word placed from the table runs as the first instruction after reset. -/
theorem test_placed_word_runs : (nextOf (step (State.reset.withFetchWord 24 0x080082))).map (·.reg 0) = some 8 := by decide

/-! ## Witnesses: the hypotheses of the statements can be met, clause by clause -/

theorem test_witness_decode_valid :
    defaultOpcodes.Valid ∧ decode defaultOpcodes 0x11 0xFF 0xFF = .ok .ret := ⟨by decide, rfl⟩
/-- Parameters at the edges of R6's constraints, OPC_RET = 0x00 among them (log 21). -/
theorem test_witness_other_valid_opcodes :
    ({ add := 0x80, mul := 0xBF, push := 0x40, pop := 0x7F, call := 0x41, ret := 0x00 } : OpcodeParams).Valid := by decide
theorem test_witness_decode_stream :
    decodeStream defaultOpcodes [0x50, 0x07, 0x01] = .ok (.call 7, [0x01]) := rfl
theorem test_witness_trailing : opcHlt.toNat / 64 = 0 ∧ opcPrn.toNat / 64 = 1 := by decide
theorem test_witness_step_runs :
    (at_ 253 [0xA0, 7, 0]).Running ∧ (at_ 253 [0xA0, 7, 0]).pc.toNat ≤ 253 ∧
      decode defaultOpcodes ((at_ 253 [0xA0, 7, 0]).mem.read 253) ((at_ 253 [0xA0, 7, 0]).mem.read 254)
        ((at_ 253 [0xA0, 7, 0]).mem.read 255) = .ok (.add 7 0) := ⟨by decide, by decide, rfl⟩
theorem test_witness_placed_word :
    State.reset.Running ∧ State.reset.pc.toNat ≤ 253 ∧ decodeTableWord 16 0x0747 = some (.prn 7) := by decide
theorem test_witness_fetch_past_top :
    (at_ 254 []).Running ∧ 254 ≤ (at_ 254 []).pc.toNat ∧ (at_ 255 []).Running ∧ 254 ≤ (at_ 255 []).pc.toNat := by decide
theorem test_witness_unknown_opcode :
    (at_ 253 [0xFF]).Running ∧ (at_ 253 [0xFF]).pc.toNat ≤ 253 ∧
      (at_ 253 [0xFF]).mem.read (at_ 253 [0xFF]).pc.toNat ∉ defaultOpcodes.recognised := by decide
theorem test_witness_first_fault : State.reset.Running ∧ (at_ 253 [0xA0, 8, 9]).Running := by decide
/-- Both ways a step may leave a fault: nothing else changed, or the late one with its register write. -/
theorem test_witness_faulted_step :
    (∃ t f, stepWith defaultOpcodes State.reset = .next t ∧ t.fault = some f) ∧
    (∃ t f, stepWith defaultOpcodes (at_ 253 [0x82, 1, 7]) = .next t ∧ t.fault = some f ∧ t.reg 1 = 7) :=
  ⟨⟨_, _, rfl, rfl⟩, ⟨_, _, rfl, rfl, rfl⟩⟩
theorem test_witness_terminal :
    ({ State.reset with halted := true } : State).Succeeded ∧
      ({ State.reset with fault := some .outputUnavailable } : State).fault = some .outputUnavailable := by decide
theorem test_witness_only_hlt :
    defaultOpcodes.Valid ∧ (at_ 0 [0x01]).Running ∧ (∃ t, stepWith defaultOpcodes (at_ 0 [0x01]) = .next t) ∧
      (at_ 0 [0x11]).Running ∧ (∃ t, stepWith defaultOpcodes (at_ 0 [0x11]) = .next t) :=
  ⟨by decide, by decide, ⟨_, rfl⟩, by decide, ⟨_, rfl⟩⟩
/-- The hypothesis on the fault is met only where the record was there before. -/
theorem test_witness_unsupported :
    ∃ s t, exec .hlt s = .next t ∧ t.fault = some (.unsupportedOperation (.other 3)) :=
  ⟨{ State.reset with fault := some (.unsupportedOperation (.other 3)) }, _, rfl, rfl⟩
theorem test_witness_memory_bounds : (255 : Nat) ≤ 255 ∧ (255 : Nat) < 256 := by decide
theorem test_witness_canonical : Memory.wf [(3, 5), (255, 1)] ∧ ¬ Memory.wf [(3, 0)] ∧ ¬ Memory.wf [(5, 1), (3, 1)] := by
  decide
theorem test_witness_load :
    (List.replicate 256 (1 : Byte)).length ≤ 256 ∧ 256 < (List.replicate 257 (1 : Byte)).length := by
  simp only [List.length_replicate]
  decide
/-- P10's PUSH that turns the next instruction into another, and A3's CALL R7. -/
theorem test_witness_next_fetch :
    (let s := { at_ 6 [0x45, 0, 0x47, 0] with x := #v[1, 0, 0, 0, 0, 0, 0, 9] }
     s.Running ∧ s.pc.toNat ≤ 251 ∧ s.mem.read s.pc.toNat = defaultOpcodes.push ∧
       s.mem.read (s.pc.toNat + 1) = regByte 0 ∧ s.spDec.sp.toNat = s.pc.toNat + 2) ∧
    (let s := at_ 0 [0x50, 7]
     s.Running ∧ s.pc.toNat ≤ 253 ∧ s.mem.read s.pc.toNat = defaultOpcodes.call ∧
       s.mem.read (s.pc.toNat + 1) = regByte 7 ∧ s.spDec.reg 7 = s.spDec.sp ∧ s.spDec.sp.toNat ≤ 253) := by decide
theorem test_witness_arithmetic : (∃ m', memWrite [] 255 300 = .ok m') ∧ ∃ t, stepWith defaultOpcodes State.reset = .next t :=
  ⟨⟨_, rfl⟩, ⟨_, rfl⟩⟩
theorem test_witness_hlt_fetched :
    (at_ 253 [0x01]).Running ∧ (at_ 253 [0x01]).pc.toNat ≤ 253 ∧
      (at_ 253 [0x01]).mem.read (at_ 253 [0x01]).pc.toNat = 0x01 := by decide
/-- The boundary of pc + 3: LDI, ADD, MUL complete at 252 and fault late at 253. -/
theorem test_witness_pc_plus_3 : (at_ 252 []).pc.toNat + 3 ≤ 255 ∧ 255 < (at_ 253 []).pc.toNat + 3 := by decide
/-- The boundary of pc + 2: PRN, PUSH, POP complete at 253; and the output input both ways. -/
theorem test_witness_pc_plus_2 :
    (at_ 253 []).pc.toNat + 2 ≤ 255 ∧ (at_ 253 []).outReady = true ∧
      ({ State.reset with outReady := false } : State).outReady = false := by decide
theorem test_witness_bad_register : 7 < (8 : Byte).toNat ∧ 7 < (255 : Byte).toNat ∧ ¬ 7 < (regByte 7).toNat := by decide
theorem test_witness_register_frames :
    ∃ t, exec (.ldi 0 5) State.reset = .next t ∧ (1 : RegIdx) ∉ regsWritten (.ldi 0 5) ∧
      (0 : RegIdx) ∉ regsRead (.ldi 0 5) ∧ (0 : RegIdx) ∈ regsWritten (.ldi 0 5) := ⟨_, rfl, by decide⟩
theorem test_witness_memory_frame :
    (∃ t, exec (.push 0) State.reset = .next t ∧ 244 ∉ cellsWritten (.push 0) State.reset ∧
      243 ∈ cellsWritten (.push 0) State.reset) ∧
    ∃ t, exec (.pop 0) State.reset = .next t ∧ 243 ∉ cellsWritten (.pop 0) State.reset :=
  ⟨⟨_, rfl, by decide⟩, ⟨_, rfl, by decide⟩⟩
theorem test_witness_control_frame :
    ∃ t, exec (.call 0) State.reset = .next t ∧ Instr.call 0 ≠ .hlt ∧ ∀ r, Instr.call 0 ≠ .prn r :=
  ⟨_, rfl, by decide, fun _ h => by cases h⟩
/-- Each clause of how pc moves: a fault, a stride, HLT, CALL, RET. -/
theorem test_witness_pc_moves :
    State.reset.fault = none ∧ (∃ t, exec (.ldi 8 0) State.reset = .next t ∧ t.fault ≠ none) ∧
      (∃ t, exec (.mul 0 1) State.reset = .next t ∧ t.fault = none ∧ pcStride (.mul 0 1) = some 3) ∧
      (∃ t, exec .hlt State.reset = .next t) ∧ (∃ t, exec (.call (regByte 7)) State.reset = .next t) ∧
      ∃ t, exec .ret State.reset = .next t :=
  ⟨rfl, ⟨_, rfl, by decide⟩, ⟨_, rfl, by decide, by decide⟩, ⟨_, rfl⟩, ⟨_, rfl⟩, ⟨_, rfl⟩⟩
theorem test_witness_output : ∃ t, exec (.prn 7) State.reset = .next t ∧ t.out = [244] := ⟨_, rfl, rfl⟩
/-- Each clause of the stack discipline. -/
theorem test_witness_stack :
    (∃ t, exec (.push (regByte 7)) State.reset = .next t) ∧
      (StackUse.nest 0 1 (.nest 2 3 .done .done) .done).sparesSp = true ∧
      State.reset.pc.toNat + 2 * ((StackUse.nest 0 1 (.nest 2 3 .done .done) .done).code.length + 2) ≤ 255 ∧
      (0 : RegIdx) ≠ 7 ∧ (1 : RegIdx) ≠ 7 ∧ (0 : RegIdx) ≠ 1 ∧ State.reset.pc.toNat + 8 ≤ 255 ∧
      (at_ 253 []).pc.toNat + 2 ≤ 255 ∧ (at_ 253 []).pc.toNat ≤ 253 ∧ ((at_ 253 []).spDec.reg 7).toNat ≤ 253 :=
  ⟨⟨_, rfl⟩, by decide⟩
theorem test_witness_ret_resumes :
    (at_ 253 []).pc.toNat ≤ 253 ∧ ∃ t, exec (.call (regByte 0)) (at_ 253 []) = .next t ∧
      ∃ u : State, u.reg 7 = t.reg 7 ∧ u.mem.read (u.reg 7).toNat = t.mem.read (t.reg 7).toNat :=
  ⟨by decide, _, rfl, _, rfl, rfl⟩
theorem test_witness_launch : ∃ s, load fallbackProgram State.reset = some s := ⟨_, rfl⟩
/-- The invariant holds in a state that steps, and in one that is FAULTED. -/
theorem test_witness_invariant :
    State.reset.Inv defaultOpcodes ∧ (∃ t, step State.reset = .next t) ∧
      ({ State.reset with fault := some (.unknownOpcode 0 0) } : State).Inv defaultOpcodes :=
  ⟨⟨by decide, fun _ h => by cases h⟩, ⟨_, rfl⟩,
    ⟨by decide, fun _ h => by cases h; exact ⟨rfl, rfl, by decide, rfl, by decide⟩⟩⟩

end Sys2Proof.Tests
end

section
/-! PROOFS. The decoder and the encoder (30_encoding.md rules R51 and R55): decoding is a lookup of the opcode byte in the
nine rows of the opcode map, and an encoding is as long as its opcode byte says. -/

namespace Sys2Proof

/-- The nine rows of the opcode map, each with the instruction it selects when the operand bytes are `a` and `b` (R54). -/
def decodeRows (p : OpcodeParams) (a b : Byte) : List (Byte × Instr) :=
  [(opcHlt, .hlt), (opcLdi, .ldi a b), (opcPrn, .prn a), (p.add, .add a b), (p.mul, .mul a b), (p.push, .push a),
    (p.pop, .pop a), (p.call, .call a), (p.ret, .ret)]

theorem decodeRows_keys (p : OpcodeParams) (a b : Byte) : (decodeRows p a b).map Prod.fst = p.recognised := rfl

/-- Looking up a key with a default is a test of the first key, then a lookup in the rest: the shape of `decode`. -/
theorem elim_lookup_cons {α β γ : Type} [DecidableEq α] (k k' : α) (v : β) (l : List (α × β)) (e : γ) (f : β → γ) :
    (((k', v) :: l).lookup k).elim e f = if k = k' then f v else (l.lookup k).elim e f := by
  by_cases h : k = k'
  · simp [h]
  · simp [List.lookup_cons, h, beq_false_of_ne h]

/-- A list whose keys are pairwise different answers exactly its own pairs. -/
theorem lookup_eq_some_iff_mem {α β : Type} [DecidableEq α] {l : List (α × β)} (h : (l.map Prod.fst).Nodup) {k : α} {v : β} :
    l.lookup k = some v ↔ (k, v) ∈ l := by
  induction l with
  | nil => simp
  | cons c l ih =>
    obtain ⟨k', v'⟩ := c
    obtain ⟨hc, hl⟩ := List.nodup_cons.mp h
    by_cases hk : k = k'
    · have hn : (k', v) ∉ l := fun hm => hc (List.mem_map.mpr ⟨_, hm, rfl⟩)
      simp [hk, hn, eq_comm]
    · simp [List.lookup_cons, hk, beq_false_of_ne hk, ih hl]

theorem lookup_eq_none_iff_key_not_mem {α β : Type} [DecidableEq α] {l : List (α × β)} {k : α} :
    l.lookup k = none ↔ k ∉ l.map Prod.fst := by
  simp only [List.lookup_eq_none_iff, bne_iff_ne, List.mem_map, not_exists, not_and]
  exact forall₂_congr fun _ _ => ne_comm

theorem decode_eq_lookup (p : OpcodeParams) (ir a b : Byte) :
    decode p ir a b = ((decodeRows p a b).lookup ir).elim (.error (.unknownOpcode ir)) .ok := by
  simp only [decode, decodeRows, elim_lookup_cons, List.lookup_nil, Option.elim_none]

/-- The decoder answers exactly the rows of the opcode map: all eight bits select, the operand bytes are taken whole (R55). -/
theorem decode_eq_ok_iff {p : OpcodeParams} (hp : p.Valid) {ir a b : Byte} {i : Instr} :
    decode p ir a b = .ok i ↔ (ir, i) ∈ decodeRows p a b := by
  obtain ⟨hnodup, -⟩ := hp
  rw [← lookup_eq_some_iff_mem (decodeRows_keys p a b ▸ hnodup), decode_eq_lookup]
  cases (decodeRows p a b).lookup ir <;> simp

/-- The decoder fails on the bytes that are no opcode of the map, and names the byte (R56). -/
theorem decode_eq_error_iff {p : OpcodeParams} {ir a b : Byte} {e : DecodeError} :
    decode p ir a b = .error e ↔ e = .unknownOpcode ir ∧ ir ∉ p.recognised := by
  rw [decode_eq_lookup, ← decodeRows_keys p a b, ← lookup_eq_none_iff_key_not_mem]
  cases (decodeRows p a b).lookup ir <;> simp [eq_comm]

theorem nops_eq_div (op : Byte) : nops op = op.toNat / 64 := by
  simp [nops, Nat.shiftRight_eq_div_pow]

/-- An encoding is its opcode byte and as many operand bytes as bits 7:6 of that byte say, never 3 (R51, R57). -/
theorem encode_operand_count {p : OpcodeParams} (hp : p.Valid) (i : Instr) :
    ∃ op ops, encode p i = op :: ops ∧ ops.length = nops op ∧ ops.length ≤ 2 := by
  obtain ⟨-, hadd, hmul, hpush, hpop, hcall, hret⟩ := hp
  cases i with
  | hlt => exact ⟨_, _, rfl, rfl, by simp⟩
  | ldi a b => exact ⟨_, _, rfl, by simp [nops, opcLdi], by simp⟩
  | prn a => exact ⟨_, _, rfl, by simp [nops, opcPrn], by simp⟩
  | add a b => exact ⟨_, _, rfl, hadd.symm, by simp⟩
  | mul a b => exact ⟨_, _, rfl, hmul.symm, by simp⟩
  | push a => exact ⟨_, _, rfl, hpush.symm, by simp⟩
  | pop a => exact ⟨_, _, rfl, hpop.symm, by simp⟩
  | call a => exact ⟨_, _, rfl, hcall.symm, by simp⟩
  | ret => exact ⟨_, _, rfl, hret.symm, by simp⟩

@[simp] theorem decodeStream_nil (p : OpcodeParams) : decodeStream p [] = .error .truncated := rfl

/-- All that decoding from a sequence can answer: the instruction of the first three bytes, and the bytes after the operand
bytes that bits 7:6 of the first count (R50, R51). -/
theorem decodeStream_cons_eq_ok_iff {p : OpcodeParams} {ir : Byte} {tail rest : List Byte} {i : Instr} :
    decodeStream p (ir :: tail) = .ok (i, rest) ↔
      decode p ir (tail.getD 0 0) (tail.getD 1 0) = .ok i ∧ nops ir ≤ tail.length ∧ tail.drop (nops ir) = rest := by
  simp only [decodeStream]
  generalize decode p ir (tail.getD 0 0) (tail.getD 1 0) = r
  cases r with
  | error e => simp
  | ok j =>
    by_cases hlen : nops ir ≤ tail.length
    · simp [hlen, Nat.not_lt.mpr hlen]
    · simp [hlen, Nat.not_le.mp hlen]

/-- Settles O5: the encoder's length by cases on the instruction, the decoder's from what it drops. -/
theorem opcodeBitsGiveTheLength : Obligations.OpcodeBitsGiveTheLength := by
  unfold Obligations.OpcodeBitsGiveTheLength
  simp only [← nops_eq_div]
  intro p hp
  refine ⟨encode_operand_count hp, fun bytes rest i h => ?_⟩
  cases bytes with
  | nil => simp at h
  | cons ir tail =>
    obtain ⟨-, hlen, rfl⟩ := decodeStream_cons_eq_ok_iff.mp h
    exact ⟨ir, tail.take (nops ir), by rw [List.take_append_drop], List.length_take_of_le hlen⟩

/-- Settles O6: the decoder is a lookup in the rows of the opcode map, whose opcode bytes are pairwise different. -/
theorem fullOpcodeByteSelectsTheInstruction : Obligations.FullOpcodeByteSelectsTheInstruction := by
  unfold Obligations.FullOpcodeByteSelectsTheInstruction
  intro p hp ir opa opb
  refine ⟨fun i => ?_, fun _ => decode_eq_error_iff⟩
  rw [decode_eq_ok_iff hp]
  simp [decodeRows, opcHlt, opcLdi, opcPrn]

end Sys2Proof
end

section
/-! PROOFS. The stack pointer unit (40_core_units.md rule R77): its two moves as arithmetic modulo 256, and the one cell a
push writes. -/

namespace Sys2Proof.Machine

/-- Down by one, 0 becoming 255 (R77). -/
theorem State.sp_spDec_toNat (s : State) : s.spDec.sp.toNat = (s.sp.toNat + 255) % 256 := by
  rw [State.sp_spDec, BitVec.toNat_sub, Nat.add_comm]
  rfl

/-- Up by one, 255 becoming 0 (R77). -/
theorem State.sp_spInc_toNat (s : State) : s.spInc.sp.toNat = (s.sp.toNat + 1) % 256 := by
  rw [State.sp_spInc, BitVec.toNat_add]
  rfl

@[simp] theorem Memory.read_write_same (m : Memory) (a : Nat) (v : Byte) : (m.write a v).read a = v := by
  rw [Memory.read_write, if_pos rfl]

theorem Memory.read_write_ne (m : Memory) {a b : Nat} (v : Byte) (h : b ≠ a) : (m.write a v).read b = m.read b := by
  rw [Memory.read_write, if_neg h]

/-- Settles O21: the moves by their arithmetic and frame, push and pop by what `pushByte_spec` and `popByte_spec` say each
does, with the cell pushed read back through the decremented pointer. -/
theorem stackPointerUnitPushesAndPops : Obligations.StackPointerUnitPushesAndPops := by
  unfold Obligations.StackPointerUnitPushesAndPops
  simp only [State.reg_seven]
  refine ⟨fun s => ⟨s.sp_spDec_toNat, s.sp_spInc_toNat, trivial, fun i hi => ⟨s.reg_spDec_ne hi, s.reg_spInc_ne hi⟩⟩,
    fun s v => ?push, fun s => ?pop, rfl⟩
  case push =>
    refine ⟨_, fun k => pushByte_spec (fun _ => v) s k, rfl, ?_, fun a ha => ?_⟩
    · simp
    · simp only [State.sp_setMem, State.sp_spDec] at ha
      exact Memory.read_write_ne _ _ ha
  case pop => exact ⟨s.spInc, fun k => popByte_spec (fun _ t => t) s k, rfl, rfl⟩

end Sys2Proof.Machine
end

section
/-! PROOFS. Decode and encode undo each other (30_encoding.md sections 1, 3 and 4; 40_core_units.md section 3): an encoding
followed by any bytes stands in the row that its own operand bytes select, and what a row selects is encoded by a leading
part of the fetched bytes. -/

namespace Sys2Proof

/-- What decodes stands in a row of the opcode map, for any opcode parameters, valid or not. -/
theorem mem_decodeRows_of_decode {p : OpcodeParams} {ir a b : Byte} {i : Instr} (h : decode p ir a b = .ok i) :
    (ir, i) ∈ decodeRows p a b := by
  rw [decode_eq_lookup] at h
  cases hl : (decodeRows p a b).lookup ir with
  | none => simp [hl] at h
  | some j =>
    obtain rfl : j = i := by simpa [hl] using h
    obtain ⟨before, after, hrows, -⟩ := List.lookup_eq_some_iff.mp hl
    simp [hrows]

/-- The opcode byte of an encoding selects the instruction, its operand bytes being the next fetched, whatever follows. -/
theorem encode_mem_decodeRows (p : OpcodeParams) (i : Instr) (rest : List Byte) {op : Byte} {ops : List Byte}
    (h : encode p i = op :: ops) : (op, i) ∈ decodeRows p ((ops ++ rest).getD 0 0) ((ops ++ rest).getD 1 0) := by
  cases i <;> (cases h; simp [decodeRows])

/-- Decoding takes exactly the encoding off the front of a sequence. -/
theorem decodeStream_encode_append {p : OpcodeParams} (hp : p.Valid) (i : Instr) (rest : List Byte) :
    decodeStream p (encode p i ++ rest) = .ok (i, rest) := by
  obtain ⟨op, ops, henc, hlen, -⟩ := encode_operand_count hp i
  rw [henc, List.cons_append, decodeStream_cons_eq_ok_iff]
  refine ⟨(decode_eq_ok_iff hp).mpr (encode_mem_decodeRows p i rest henc), ?_, ?_⟩
  · simp [hlen]
  · rw [← hlen, List.drop_left]

/-- Settles O3: the length is the opcode byte's own, and the operand bytes stand where the decoder reads them. -/
theorem decodingAnEncodedInstructionGivesItBack : Obligations.DecodingAnEncodedInstructionGivesItBack := by
  unfold Obligations.DecodingAnEncodedInstructionGivesItBack
  exact fun _ hp => decodeStream_encode_append hp

/-- A row's instruction is encoded by the row's opcode byte and the first of the operand bytes. -/
theorem encode_prefix_of_mem_decodeRows {p : OpcodeParams} {a b : Byte} :
    ∀ row ∈ decodeRows p a b, encode p row.2 <+: [row.1, a, b] := by
  simp [decodeRows, encode]

theorem encode_of_decode {p : OpcodeParams} (hp : p.Valid) {ir a b : Byte} {i : Instr} (h : decode p ir a b = .ok i) :
    encode p i = ir :: [a, b].take (nops ir) := by
  obtain ⟨op, ops, henc, hlen, -⟩ := encode_operand_count hp i
  have hpre := encode_prefix_of_mem_decodeRows _ (mem_decodeRows_of_decode h)
  rw [henc, List.cons_prefix_cons] at hpre
  obtain ⟨rfl, hops⟩ := hpre
  rw [henc, ← hlen, ← List.prefix_iff_eq_take.mp hops]

/-- Settles O4: the encoding is a leading part of the three bytes, as long as the opcode byte says. -/
theorem encodingADecodedInstructionGivesItsBytesBack : Obligations.EncodingADecodedInstructionGivesItsBytesBack := by
  unfold Obligations.EncodingADecodedInstructionGivesItsBytesBack
  intro p hp ir opa opb i h
  rw [encode_of_decode hp h, nops_eq_div, Nat.add_comm, List.take_succ_cons]

/-- The decoder's instruction does not depend on bytes past those the opcode byte counts: they are no part of the encoding. -/
theorem decode_ok_of_same_operands {p : OpcodeParams} (hp : p.Valid) {ir a b a' b' : Byte} {i : Instr}
    (hsame : [a, b].take (nops ir) = [a', b'].take (nops ir)) (h : decode p ir a b = .ok i) :
    decode p ir a' b' = .ok i := by
  have hstream := decodeStream_encode_append hp i ([a', b'].drop (nops ir))
  rw [encode_of_decode hp h, hsame, List.cons_append, List.take_append_drop] at hstream
  exact (decodeStream_cons_eq_ok_iff.mp hstream).1

theorem decode_congr_operands {p : OpcodeParams} (hp : p.Valid) {ir a b a' b' : Byte}
    (hsame : [a, b].take (nops ir) = [a', b'].take (nops ir)) : decode p ir a b = decode p ir a' b' := by
  cases h : decode p ir a b with
  | ok i => exact (decode_ok_of_same_operands hp hsame h).symm
  | error e => exact (decode_eq_error_iff.mpr (decode_eq_error_iff.mp h)).symm

/-- Settles O7: bytes the opcode byte does not count are no part of the encoding. -/
theorem trailingBytesDoNotMatter : Obligations.TrailingBytesDoNotMatter := by
  unfold Obligations.TrailingBytesDoNotMatter
  simp only [← nops_eq_div]
  intro p hp ir a b a' b'
  refine ⟨fun hnone => decode_congr_operands hp ?_, fun hone => decode_congr_operands hp ?_⟩
  · simp [hnone]
  · simp [hone]

/-- Settles O2: each word is run through the decoder. -/
theorem specWordsDecodeAsListed : Obligations.SpecWordsDecodeAsListed := by
  unfold Obligations.SpecWordsDecodeAsListed
  decide

end Sys2Proof
end

section
/-! PROOFS. Memory (20_memory.md sections 1 and 5): the two primitives read back what they write, a canonical memory is its
contents, and the host's load places each byte at its own address. -/

namespace Sys2Proof.Machine

/-- The load and the placing of a word put byte `i` at the `i`-th address from `a`; cells past the last byte keep theirs. -/
theorem Memory.read_writeBytes_add (m : Memory) {a : Nat} {bytes : List Byte} (h : a + bytes.length ≤ 256) (i : Nat) :
    (m.writeBytes a bytes).read (a + i) = bytes.getD i (m.read (a + i)) := by
  induction bytes generalizing m a i with
  | nil => rfl
  | cons b rest ih =>
    rw [List.length_cons] at h
    have ha : a < memSize := by simp only [memSize]; omega
    simp only [Memory.writeBytes, ha, if_true]
    cases i with
    | zero =>
      show ((m.write a b).writeBytes (a + 1) rest).read a = b
      rw [Memory.read_writeBytes_below _ _ _ (Nat.lt_add_one a), Memory.read_write_same]
    | succ j =>
      rw [Nat.add_left_comm a j 1, Nat.add_comm j (a + 1), ih (m.write a b) (by omega) j,
        Memory.read_write_ne m b (show a + 1 + j ≠ a by omega)]
      rfl

/-- In a memory by rising address, a listed cell reads as it is listed. -/
theorem Memory.read_of_mem {m : Memory} (h : m.Pairwise (fun c d => c.1 < d.1)) {c : Host.Cell} (hc : c ∈ m) :
    m.read c.1 = c.2 := by
  induction m with
  | nil => simp at hc
  | cons d rest ih =>
    obtain ⟨hd, hrest⟩ := List.pairwise_cons.mp h
    rcases List.mem_cons.mp hc with rfl | hc
    · simp [Memory.read]
    · rw [Memory.read, if_neg (Nat.ne_of_lt (hd c hc)), ih hrest hc]

/-- What does not read as an unlisted cell is listed. -/
theorem Memory.mem_of_read_ne {m : Memory} {a : Nat} (h : m.read a ≠ Memory.unlisted) : (a, m.read a) ∈ m := by
  induction m with
  | nil => simp [Memory.read] at h
  | cons d rest ih =>
    by_cases hd : d.1 = a
    · simp [Memory.read, ← hd]
    · simp only [Memory.read, hd, if_false] at h ⊢
      exact List.mem_cons_of_mem d (ih h)

/-- The entries of a canonical memory are determined by what it reads. -/
theorem Memory.mem_iff_read {m : Memory} (h : m.wf) (c : Host.Cell) :
    c ∈ m ↔ m.read c.1 = c.2 ∧ c.2 ≠ Memory.unlisted := by
  obtain ⟨hsorted, hcells⟩ := h
  constructor
  · exact fun hc => ⟨Memory.read_of_mem hsorted hc, (hcells c hc).2⟩
  · rintro ⟨hread, hne⟩
    have hmem := Memory.mem_of_read_ne (m := m) (a := c.1) (hread ▸ hne)
    rwa [hread] at hmem

/-- Settles O18: both memories list the same cells, in the one rising order. -/
theorem canonicalMemoryIsItsContents : Obligations.CanonicalMemoryIsItsContents := by
  unfold Obligations.CanonicalMemoryIsItsContents
  intro m m' hm hm' hread
  have hanti : Std.Antisymm (fun c d : Host.Cell => c.1 < d.1) := ⟨fun _ _ hcd hdc => absurd hcd (Nat.lt_asymm hdc)⟩
  have hirrefl : Std.Irrefl (fun c d : Host.Cell => c.1 < d.1) := ⟨fun c => Nat.lt_irrefl c.1⟩
  refine List.Pairwise.eq_of_mem_iff hm.1 hm'.1 fun c => ?_
  rw [Memory.mem_iff_read hm, Memory.mem_iff_read hm', hread]

/-- Settles O17: the primitives by whether the address is a byte, the stack's address being one. -/
theorem memoryReadsBackWhatWasWritten : Obligations.MemoryReadsBackWhatWasWritten := by
  unfold Obligations.MemoryReadsBackWhatWasWritten
  refine ⟨fun m a v ha => ⟨_, memWrite_ok m v ha, ⟨_, memRead_ok _ ha, ?same⟩, fun b hb => ?other⟩,
    fun m a v ha => ⟨memRead_error m ha, memWrite_error m v ha⟩,
    fun s v => ⟨_, memWrite_ok s.mem v (byte_le_255 _)⟩⟩
  case same => simp
  case other => rw [memRead, memRead, Memory.read_write_ne m _ hb]

/-- Settles O19: where each byte is placed by the load's own law, the rest by the length test. -/
theorem loadPlacesTheProgramFromAddressZero : Obligations.LoadPlacesTheProgramFromAddressZero := by
  unfold Obligations.LoadPlacesTheProgramFromAddressZero
  refine ⟨fun bytes s hlen => ?_, fun bytes s hlen => if_neg (Nat.not_le.mpr hlen), fun a => rfl⟩
  have hread := fun i => Memory.read_writeBytes_add s.mem (a := 0) (by omega : 0 + bytes.length ≤ 256) i
  simp only [Nat.zero_add] at hread
  refine ⟨_, if_pos hlen, rfl, fun i hi => ?_, fun i hi => ?_⟩
  · rw [State.setMem_mem, hread, List.getD_eq_getElem _ _ hi, List.getD_eq_getElem _ _ hi]
  · rw [State.setMem_mem, hread, List.getD_eq_default _ _ hi]

end Sys2Proof.Machine
end

section
/-! PROOFS. Everything an instruction can do, said once (41_system_and_data.md to 44_call_return.md, 60_exceptions.md): the
state after `pc_advance`, the fault of a bad register operand, and one relation with a row per outcome of `exec`. -/

namespace Sys2Proof.Machine

/-! ## The state after `pc_advance` (R76) -/

/-- The state `pc_advance(len)` leaves: pc moved where the sum is an address, else the fault recorded. -/
def State.advanced (s : State) (len : Nat) : State :=
  if s.pc.toNat + len ≤ 255 then s.setPc (BitVec.ofNat 8 (s.pc.toNat + len))
  else s.setFault (.outOfBounds (s.pc.toNat + len))

theorem State.advanced_ok {s : State} {len : Nat} (h : s.pc.toNat + len ≤ 255) :
    s.advanced len = s.setPc (BitVec.ofNat 8 (s.pc.toNat + len)) := if_pos h

theorem State.advanced_late {s : State} {len : Nat} (h : 255 < s.pc.toNat + len) :
    s.advanced len = s.setFault (.outOfBounds (s.pc.toNat + len)) := if_neg (Nat.not_le.mpr h)

theorem pcAdvance_eq (len : Nat) (s : State) : pcAdvance len s = .next (s.advanced len) := by
  rcases pcAdvance_cases len s with ⟨h, he⟩ | ⟨h, he⟩
  · rw [he, State.advanced_ok h]
  · rw [he, State.advanced_late h]

@[simp] theorem State.advanced_x (s : State) (len : Nat) : (s.advanced len).x = s.x := by
  unfold State.advanced; split <;> rfl
@[simp] theorem State.advanced_mem (s : State) (len : Nat) : (s.advanced len).mem = s.mem := by
  unfold State.advanced; split <;> rfl
@[simp] theorem State.advanced_halted (s : State) (len : Nat) : (s.advanced len).halted = s.halted := by
  unfold State.advanced; split <;> rfl
@[simp] theorem State.advanced_out (s : State) (len : Nat) : (s.advanced len).out = s.out := by
  unfold State.advanced; split <;> rfl
@[simp] theorem State.advanced_outReady (s : State) (len : Nat) : (s.advanced len).outReady = s.outReady := by
  unfold State.advanced; split <;> rfl
@[simp] theorem State.reg_advanced (s : State) (len : Nat) (i : RegIdx) : (s.advanced len).reg i = s.reg i := by
  simp [State.reg]
@[simp] theorem State.sp_advanced (s : State) (len : Nat) : (s.advanced len).sp = s.sp := s.reg_advanced len 7

theorem State.advanced_fault (s : State) (len : Nat) :
    (s.advanced len).fault = if s.pc.toNat + len ≤ 255 then s.fault else some (.outOfBounds (s.pc.toNat + len)) := by
  unfold State.advanced; split <;> rfl

theorem State.advanced_pc_toNat (s : State) (len : Nat) :
    (s.advanced len).pc.toNat = if s.pc.toNat + len ≤ 255 then s.pc.toNat + len else s.pc.toNat := by
  unfold State.advanced
  split
  · rw [State.setPc_pc, BitVec.toNat_ofNat, Nat.mod_eq_of_lt (by omega)]
  · rfl

/-- `pc_advance` either changes no fault record or no pc (R17). -/
theorem State.advanced_fault_or_pc (s : State) (len : Nat) :
    (s.advanced len).fault = s.fault ∨ (s.advanced len).pc = s.pc := by
  unfold State.advanced
  split
  · exact .inl rfl
  · exact .inr rfl

/-! ## The first register operand byte above 7 (R53, R144) -/

/-- The first operand byte, a before b, that names no register. -/
def firstBadOperand (i : Instr) : Option Byte := i.regOperands.find? fun b => decide (7 < b.toNat)

@[simp] theorem not_seven_lt_regIdx (a : RegIdx) : ¬ 7 < a.val := by omega

/-- A bad operand byte is one of the instruction's register operands and above 7. -/
theorem mem_of_firstBadOperand {i : Instr} {b : Byte} (h : firstBadOperand i = some b) :
    b ∈ i.regOperands ∧ 7 < b.toNat :=
  ⟨List.mem_of_find?_eq_some h, by simpa using List.find?_some h⟩

/-- With no bad operand byte, every register operand names its register. -/
theorem exists_regByte_of_no_firstBadOperand {i : Instr} (h : firstBadOperand i = none) :
    ∀ b ∈ i.regOperands, ∃ r, b = regByte r := by
  intro b hb
  have hok : ¬ 7 < b.toNat := by simpa using List.find?_eq_none.mp h b hb
  exact (regByte_or_bad b).resolve_right hok

theorem withReg_withReg_bad (a b : Byte) {c : Byte} (h : [a, b].find? (fun b => decide (7 < b.toNat)) = some c) (s : State)
    (k : RegIdx → RegIdx → Result) :
    (withReg a s fun i => withReg b s fun j => k i j) = .next (s.setFault (.registerIndexOutOfRange c)) := by
  rcases regByte_or_bad a with ⟨r, rfl⟩ | ha
  · obtain ⟨hb, rfl⟩ : 7 < b.toNat ∧ b = c := by simpa using h
    rw [withReg_regByte, withReg_bad hb]
  · obtain rfl : a = c := by simpa [ha] using h
    exact withReg_bad ha s _

/-- Whatever the instruction, its first bad operand byte is the fault, before any effect. -/
theorem exec_of_firstBadOperand {i : Instr} {b : Byte} (h : firstBadOperand i = some b) (s : State) :
    exec i s = .next (s.setFault (.registerIndexOutOfRange b)) := by
  obtain ⟨hmem, hbad⟩ := mem_of_firstBadOperand h
  cases i with
  | hlt | ret => simp [Instr.regOperands] at hmem
  | ldi a _ | prn a | push a | pop a | call a =>
    obtain rfl : b = a := by simpa [Instr.regOperands] using hmem
    exact withReg_bad hbad s _
  | add a c | mul a c => exact withReg_withReg_bad a c h s _

/-! ## The outcomes of `exec` -/

/-- One row per outcome of an instruction: which state follows `s`. -/
inductive Effect (s : State) : Instr → State → Prop
  | badOperand {i : Instr} {b : Byte} (h : firstBadOperand i = some b) :
      Effect s i (s.setFault (.registerIndexOutOfRange b))
  | hlt : Effect s .hlt s.halt
  | ldi (a : RegIdx) (imm : Byte) : Effect s (.ldi (regByte a) imm) ((s.setReg a imm).advanced 3)
  | prnReady (a : RegIdx) (h : s.outReady = true) : Effect s (.prn (regByte a)) ((s.emit (s.reg a)).advanced 2)
  | prnBlocked (a : RegIdx) (h : s.outReady = false) : Effect s (.prn (regByte a)) (s.setFault .outputUnavailable)
  | add (a b : RegIdx) : Effect s (.add (regByte a) (regByte b)) ((s.setReg a (s.reg a + s.reg b)).advanced 3)
  | mul (a b : RegIdx) : Effect s (.mul (regByte a) (regByte b)) ((s.setReg a (s.reg a * s.reg b)).advanced 3)
  | push (a : RegIdx) :
      Effect s (.push (regByte a)) ((s.spDec.setMem (s.mem.write (s.sp - 1).toNat (s.spDec.reg a))).advanced 2)
  | pop (a : RegIdx) : Effect s (.pop (regByte a)) ((s.setReg a (s.mem.read s.sp.toNat)).spInc.advanced 2)
  | call (a : RegIdx) :
      Effect s (.call (regByte a))
        ((s.spDec.setMem (s.mem.write (s.sp - 1).toNat (BitVec.ofNat 8 (s.pc.toNat + 2)))).setPc (s.spDec.reg a))
  | ret : Effect s .ret (s.spInc.setPc (s.mem.read s.sp.toNat))

/-- The rows say what `exec` gives. -/
theorem Effect.exec_eq {s t : State} {i : Instr} (h : Effect s i t) : exec i s = .next t := by
  cases h with
  | badOperand h => exact exec_of_firstBadOperand h s
  | hlt => exact exec_hlt s
  | ldi a imm => rw [exec_ldi, pcAdvance_eq]
  | prnReady a h => rw [exec_prn, if_pos h, pcAdvance_eq]
  | prnBlocked a h => rw [exec_prn, if_neg (by simp [h])]
  | add a b => rw [exec_add, pcAdvance_eq]
  | mul a b => rw [exec_mul, pcAdvance_eq]
  | push a => rw [exec_push, pcAdvance_eq]
  | pop a => rw [exec_pop, pcAdvance_eq]
  | call a => exact exec_call a s
  | ret => exact exec_ret s

/-- Every instruction with every operand byte has a row: none refuses, none stops. -/
theorem exists_effect (i : Instr) (s : State) : ∃ t, Effect s i t := by
  cases hbad : firstBadOperand i with
  | some b => exact ⟨_, .badOperand hbad⟩
  | none =>
    have hreg := exists_regByte_of_no_firstBadOperand hbad
    cases i with
    | hlt => exact ⟨_, .hlt⟩
    | ret => exact ⟨_, .ret⟩
    | ldi a imm => obtain ⟨a, rfl⟩ := hreg a (by simp [Instr.regOperands]); exact ⟨_, .ldi a imm⟩
    | push a => obtain ⟨a, rfl⟩ := hreg a (by simp [Instr.regOperands]); exact ⟨_, .push a⟩
    | pop a => obtain ⟨a, rfl⟩ := hreg a (by simp [Instr.regOperands]); exact ⟨_, .pop a⟩
    | call a => obtain ⟨a, rfl⟩ := hreg a (by simp [Instr.regOperands]); exact ⟨_, .call a⟩
    | prn a =>
      obtain ⟨a, rfl⟩ := hreg a (by simp [Instr.regOperands])
      by_cases hout : s.outReady = true
      · exact ⟨_, .prnReady a hout⟩
      · exact ⟨_, .prnBlocked a (eq_false_of_ne_true hout)⟩
    | add a b =>
      obtain ⟨a, rfl⟩ := hreg a (by simp [Instr.regOperands])
      obtain ⟨b, rfl⟩ := hreg b (by simp [Instr.regOperands])
      exact ⟨_, .add a b⟩
    | mul a b =>
      obtain ⟨a, rfl⟩ := hreg a (by simp [Instr.regOperands])
      obtain ⟨b, rfl⟩ := hreg b (by simp [Instr.regOperands])
      exact ⟨_, .mul a b⟩

theorem Effect.of_exec {s t : State} {i : Instr} (h : exec i s = .next t) : Effect s i t := by
  obtain ⟨u, hu⟩ := exists_effect i s
  obtain rfl : u = t := by simpa [h] using hu.exec_eq.symm
  exact hu

end Sys2Proof.Machine
end

section
/-! PROOFS. What each instruction does (41_system_and_data.md to 44_call_return.md), read off its row of `Effect`. -/

namespace Sys2Proof.Machine

/-- With room for the successor, `pc_advance` moves pc by the length and records nothing. -/
theorem State.advanced_completes {s : State} {len : Nat} (h : s.pc.toNat + len ≤ 255) :
    (s.advanced len).pc.toNat = s.pc.toNat + len ∧ (s.advanced len).fault = s.fault := by
  simp [State.advanced_pc_toNat, State.advanced_fault, h]

/-- How LDI, ADD and MUL complete, for the value each writes. -/
theorem setReg_advanced_completes (a : RegIdx) (v : Byte) {s : State} (h : s.pc.toNat + 3 ≤ 255) :
    ((s.setReg a v).advanced 3).reg a = v ∧ ((s.setReg a v).advanced 3).pc.toNat = s.pc.toNat + 3 ∧
      ((s.setReg a v).advanced 3).fault = s.fault :=
  ⟨by simp, State.advanced_completes (s := s.setReg a v) h⟩

/-- Settles O24: LDI's row, with room for pc + 3. -/
theorem ldiLoadsTheImmediate : Obligations.LdiLoadsTheImmediate := by
  unfold Obligations.LdiLoadsTheImmediate
  exact fun a imm s h => ⟨_, (Effect.ldi a imm).exec_eq, setReg_advanced_completes a imm h⟩

/-- Settles O27: ADD's row, the byte sum being the sum modulo 256. -/
theorem addWritesTheSumModulo256 : Obligations.AddWritesTheSumModulo256 := by
  unfold Obligations.AddWritesTheSumModulo256
  intro a b s h
  obtain ⟨hreg, hpc, hfault⟩ := setReg_advanced_completes a (s.reg a + s.reg b) h
  exact ⟨_, (Effect.add a b).exec_eq, by rw [hreg, BitVec.toNat_add], hpc, hfault⟩

/-- Settles O28: MUL's row, the byte product being the product modulo 256. -/
theorem mulWritesTheProductModulo256 : Obligations.MulWritesTheProductModulo256 := by
  unfold Obligations.MulWritesTheProductModulo256
  intro a b s h
  obtain ⟨hreg, hpc, hfault⟩ := setReg_advanced_completes a (s.reg a * s.reg b) h
  exact ⟨_, (Effect.mul a b).exec_eq, by rw [hreg, BitVec.toNat_mul], hpc, hfault⟩

/-- Settles O29: the three rows where `pc_advance` is late, the register write standing. -/
theorem lateOutOfBoundsKeepsTheRegisterWrite : Obligations.LateOutOfBoundsKeepsTheRegisterWrite := by
  unfold Obligations.LateOutOfBoundsKeepsTheRegisterWrite
  intro a b imm s h
  have hlate : ∀ v, (s.setReg a v).advanced 3 = { s.setReg a v with fault := some (.outOfBounds (s.pc.toNat + 3)) } :=
    fun v => State.advanced_late (s := s.setReg a v) h
  refine ⟨?_, ?_, ?_⟩
  · rw [(Effect.ldi a imm).exec_eq, hlate]
  · rw [(Effect.add a b).exec_eq, hlate]
  · rw [(Effect.mul a b).exec_eq, hlate]

/-- Settles O25: PRN's row with the output ready. -/
theorem prnEmitsTheRegister : Obligations.PrnEmitsTheRegister := by
  unfold Obligations.PrnEmitsTheRegister
  exact fun a s hout h =>
    ⟨_, (Effect.prnReady a hout).exec_eq, by simp, State.advanced_completes (s := s.emit (s.reg a)) h⟩

/-- Settles O26: PRN's row with the output blocked. -/
theorem prnFaultsWhenOutputIsUnavailable : Obligations.PrnFaultsWhenOutputIsUnavailable := by
  unfold Obligations.PrnFaultsWhenOutputIsUnavailable
  exact fun a s hout => (Effect.prnBlocked a hout).exec_eq

/-- A register read after the decrement of the pointer: register 7 is the new pointer (D5, log 5). -/
theorem State.reg_spDec (s : State) (a : RegIdx) : s.spDec.reg a = if a = 7 then s.spDec.sp else s.reg a := by
  by_cases ha : a = 7
  · rw [if_pos ha, ha, State.reg_seven]
  · rw [if_neg ha, State.reg_spDec_ne s ha]

/-- Settles O30: PUSH's row, the pushed cell read back through the decremented pointer. -/
theorem pushStoresBelowTheStackPointer : Obligations.PushStoresBelowTheStackPointer := by
  unfold Obligations.PushStoresBelowTheStackPointer
  simp only [State.reg_seven]
  intro a s h
  refine ⟨_, (Effect.push a).exec_eq, ?pointer, ?cell, State.advanced_completes (s := s.spDec.setMem _) h⟩
  case pointer => rw [State.sp_advanced, State.sp_setMem, State.sp_spDec_toNat]
  case cell => simp [State.reg_spDec]

/-- Settles O31: POP's row, the register written before the pointer goes up. -/
theorem popLoadsFromTheStackPointer : Obligations.PopLoadsFromTheStackPointer := by
  unfold Obligations.PopLoadsFromTheStackPointer
  simp only [State.reg_seven]
  intro a s h
  refine ⟨_, (Effect.pop a).exec_eq, fun ha => ⟨?_, ?_⟩, fun ha => ?_, State.advanced_completes (s := State.spInc _) h⟩
  · rw [State.reg_advanced, State.reg_spInc_ne _ ha, State.reg_setReg_same]
  · rw [State.sp_advanced, State.sp_spInc_toNat, State.sp_setReg_ne s _ ha]
  · rw [State.sp_advanced, State.sp_spInc_toNat, ha, State.sp_setReg_seven]

/-- Settles O32: CALL's row, with no check of pc. -/
theorem callPushesTheReturnAddressAndTransfers : Obligations.CallPushesTheReturnAddressAndTransfers := by
  unfold Obligations.CallPushesTheReturnAddressAndTransfers
  simp only [State.reg_seven]
  intro a s
  refine ⟨_, (Effect.call a).exec_eq, ?pointer, ?cell, ?target, rfl⟩
  case pointer => rw [State.sp_setPc, State.sp_setMem, State.sp_spDec_toNat]
  case cell => simp
  case target => exact s.reg_spDec a

/-- Settles O33: RET's row. -/
theorem retTransfersToThePoppedByte : Obligations.RetTransfersToThePoppedByte := by
  unfold Obligations.RetTransfersToThePoppedByte
  exact fun s => ⟨_, Effect.ret.exec_eq, rfl, s.sp_spInc_toNat, rfl⟩

/-- Settles O34: in each form the byte is the first bad operand. -/
theorem registerByteAboveSevenFaults : Obligations.RegisterByteAboveSevenFaults := by
  unfold Obligations.RegisterByteAboveSevenFaults
  intro b s hb
  have hfault : ∀ i, firstBadOperand i = some b →
      exec i s = .next { s with fault := some (.registerIndexOutOfRange b) } :=
    fun i h => exec_of_firstBadOperand h s
  refine ⟨fun c => ⟨hfault _ ?_, hfault _ ?_, hfault _ ?_⟩, fun a => ⟨hfault _ ?_, hfault _ ?_⟩, hfault _ ?_, hfault _ ?_,
    hfault _ ?_, hfault _ ?_⟩ <;>
    simp [firstBadOperand, Instr.regOperands, hb]

end Sys2Proof.Machine
end

section
/-! PROOFS. What each instruction leaves unchanged and what it does not depend on (10_state.md sections 2 to 5, 20_memory.md
section 1), over the rows of `Effect`. -/

namespace Sys2Proof.Machine

@[simp] theorem namedReg_regByte (a : RegIdx) : namedReg (regByte a) = [a] := by
  simp [namedReg]

/-- Settles O35: each row writes only the registers of its write column. -/
theorem registersOutsideTheWriteColumnAreUnchanged : Obligations.RegistersOutsideTheWriteColumnAreUnchanged := by
  unfold Obligations.RegistersOutsideTheWriteColumnAreUnchanged
  intro i s t h r hr
  cases Effect.of_exec h with
  | badOperand | hlt | prnReady | prnBlocked => simp
  | ldi a | add a | mul a =>
    have hra : r ≠ a := by simpa [regsWritten] using hr
    rw [State.reg_advanced, State.reg_setReg_ne _ _ hra]
  | push =>
    have hr7 : r ≠ 7 := by simpa [regsWritten] using hr
    rw [State.reg_advanced, State.reg_setMem, State.reg_spDec_ne _ hr7]
  | pop a =>
    obtain ⟨hr7, hra⟩ : r ≠ 7 ∧ r ≠ a := by simpa [regsWritten] using hr
    rw [State.reg_advanced, State.reg_spInc_ne _ hr7, State.reg_setReg_ne _ _ hra]
  | call =>
    have hr7 : r ≠ 7 := by simpa [regsWritten] using hr
    rw [State.reg_setPc, State.reg_setMem, State.reg_spDec_ne _ hr7]
  | ret =>
    have hr7 : r ≠ 7 := by simpa [regsWritten] using hr
    rw [State.reg_setPc, State.reg_spInc_ne _ hr7]

/-- Settles O37: memory is written by the rows of PUSH and CALL alone, at the decremented pointer. -/
theorem memoryOutsideThePushedCellIsUnchanged : Obligations.MemoryOutsideThePushedCellIsUnchanged := by
  unfold Obligations.MemoryOutsideThePushedCellIsUnchanged
  intro i s t h a ha
  cases Effect.of_exec h with
  | badOperand | hlt | ldi | prnReady | prnBlocked | add | mul | pop | ret => simp
  | push =>
    rw [State.advanced_mem]
    exact Memory.read_write_ne _ _ (by simpa only [cellsWritten, State.sp_spDec, List.mem_singleton] using ha)
  | call => exact Memory.read_write_ne _ _ (by simpa only [cellsWritten, State.sp_spDec, List.mem_singleton] using ha)

/-- No instruction changes both the fault record and pc (R149). -/
theorem Effect.fault_or_pc {s t : State} {i : Instr} (h : Effect s i t) : t.fault = s.fault ∨ t.pc = s.pc := by
  cases h with
  | badOperand | prnBlocked => exact .inr rfl
  | hlt | call | ret => exact .inl rfl
  | ldi | add | mul => exact State.advanced_fault_or_pc _ 3
  | prnReady | push | pop => exact State.advanced_fault_or_pc _ 2

/-- Settles O38: only HLT's row sets `halted`, only PRN's appends to `out`, none writes `outReady`. -/
theorem controlStateIsUnchangedOutsideItsInstructions : Obligations.ControlStateIsUnchangedOutsideItsInstructions := by
  unfold Obligations.ControlStateIsUnchangedOutsideItsInstructions
  intro i s t h
  have he := Effect.of_exec h
  refine ⟨fun hhlt => ?_, fun hprn => ?_, ?_, he.fault_or_pc⟩
  · cases he with
    | hlt => exact absurd rfl hhlt
    | badOperand | ldi | prnReady | prnBlocked | add | mul | push | pop | call | ret => simp
  · cases he with
    | prnReady => exact absurd rfl (hprn _)
    | badOperand | hlt | ldi | prnBlocked | add | mul | push | pop | call | ret => simp
  · cases he <;> simp

/-- `pc_advance` without a fault moved pc by the length. -/
theorem State.advanced_pc_of_no_fault {s : State} {len : Nat} (h : (s.advanced len).fault = none) :
    (s.advanced len).pc.toNat = s.pc.toNat + len := by
  by_cases hroom : s.pc.toNat + len ≤ 255
  · exact (State.advanced_completes hroom).1
  · simp [State.advanced_fault, hroom] at h

/-- An instruction in sequence that goes on advances pc by its stride (R16). -/
theorem Effect.pc_of_stride {s t : State} {i : Instr} {n : Nat} (h : Effect s i t) (hn : pcStride i = some n)
    (ht : t.fault = none) : t.pc.toNat = s.pc.toNat + n := by
  cases h with
  | badOperand | prnBlocked => simp at ht
  | hlt | call | ret => simp [pcStride] at hn
  | ldi | add | mul | prnReady | push | pop =>
    cases hn
    exact State.advanced_pc_of_no_fault ht

/-- Settles O39: a fault leaves pc, a stride moves it, and HLT, CALL and RET say themselves where it goes. -/
theorem pcMovesAsTheTableSays : Obligations.PcMovesAsTheTableSays := by
  unfold Obligations.PcMovesAsTheTableSays
  simp only [State.reg_seven]
  intro i s t hs h
  have he := Effect.of_exec h
  refine ⟨fun ht => ?fault, fun ht n hn => he.pc_of_stride hn ht, ?hlt, ?call, ?ret⟩
  case fault => exact he.fault_or_pc.resolve_left fun hfault => ht (hfault.trans hs)
  case hlt =>
    rintro rfl
    cases h
    rfl
  case call =>
    rintro r rfl
    rw [exec_call] at h
    cases h
    rfl
  case ret =>
    rintro rfl
    rw [exec_ret] at h
    cases h
    rfl

/-! ## Registers that are not read -/

theorem State.setReg_setReg_same (s : State) (i : RegIdx) (v w : Byte) : (s.setReg i v).setReg i w = s.setReg i w := by
  simp [State.setReg]

theorem State.setReg_comm (s : State) {i j : RegIdx} (v w : Byte) (h : j ≠ i) :
    (s.setReg i v).setReg j w = (s.setReg j w).setReg i v := by
  simp only [State.setReg]
  rw [Vector.set_comm _ _ (fun e => h (Fin.ext e.symm))]

theorem State.advanced_setReg (s : State) (i : RegIdx) (v : Byte) (len : Nat) :
    (s.setReg i v).advanced len = (s.advanced len).setReg i v := by
  unfold State.advanced
  rw [State.setReg_pc]
  split <;> rfl

theorem State.spDec_setReg (s : State) {i : RegIdx} (v : Byte) (h : i ≠ 7) : (s.setReg i v).spDec = s.spDec.setReg i v := by
  rw [State.spDec, State.sp_setReg_ne s v h, State.spDec]
  exact State.setReg_comm s v _ h.symm

theorem State.spInc_setReg (s : State) {i : RegIdx} (v : Byte) (h : i ≠ 7) : (s.setReg i v).spInc = s.spInc.setReg i v := by
  rw [State.spInc, State.sp_setReg_ne s v h, State.spInc]
  exact State.setReg_comm s v _ h.symm

/-- Another value in a register before a write of some register: gone if it is that register, else still there after. -/
theorem State.setReg_setReg (s : State) (i j : RegIdx) (v w : Byte) :
    (s.setReg i v).setReg j w = if i = j then s.setReg j w else (s.setReg j w).setReg i v := by
  by_cases h : i = j
  · rw [if_pos h, h, State.setReg_setReg_same]
  · rw [if_neg h, State.setReg_comm s v w (Ne.symm h)]

theorem namedReg_bad {b : Byte} (h : 7 < b.toNat) : namedReg b = [] := by
  simp [namedReg, show ¬ b.toNat < 8 by omega]

/-- An instruction that takes the fault of a bad operand has no register in its write column that it does not read. -/
theorem mem_regsRead_of_firstBadOperand {i : Instr} {b : Byte} (h : firstBadOperand i = some b) {r : RegIdx}
    (hr : r ∈ regsWritten i) : r ∈ regsRead i := by
  obtain ⟨hmem, hbad⟩ := mem_of_firstBadOperand h
  cases i with
  | hlt | prn => simp [regsWritten] at hr
  | ret => exact hr
  | ldi a =>
    obtain rfl : b = a := by simpa [Instr.regOperands] using hmem
    simp [regsWritten, namedReg_bad hbad] at hr
  | pop a =>
    obtain rfl : b = a := by simpa [Instr.regOperands] using hmem
    simpa [regsWritten, regsRead, namedReg_bad hbad] using hr
  | add | mul => exact List.mem_append_left _ hr
  | push | call => exact List.mem_cons.mpr (.inl (List.mem_singleton.mp hr))

/-- Settles O36: each row, run with another value in a register it does not read. -/
theorem registersOutsideTheReadColumnDoNotMatter : Obligations.RegistersOutsideTheReadColumnDoNotMatter := by
  unfold Obligations.RegistersOutsideTheReadColumnDoNotMatter
  intro i s t r v h hr
  cases Effect.of_exec h with
  | badOperand hbad =>
    rw [if_neg fun hw => hr (mem_regsRead_of_firstBadOperand hbad hw)]
    exact exec_of_firstBadOperand hbad (s.setReg r v)
  | hlt => rfl
  | ldi a imm =>
    rw [(Effect.ldi a imm).exec_eq, State.setReg_setReg]
    by_cases hra : r = a <;> simp [regsWritten, hra, State.advanced_setReg]
  | prnReady a hout =>
    have hra : a ≠ r := by simpa [regsRead, eq_comm] using hr
    rw [(Effect.prnReady a (s := s.setReg r v) hout).exec_eq, State.reg_setReg_ne s v hra]
    exact congrArg _ (State.advanced_setReg (s.emit (s.reg a)) r v 2)
  | prnBlocked a hout => exact (Effect.prnBlocked a (s := s.setReg r v) hout).exec_eq
  | add a b =>
    obtain ⟨hra, hrb⟩ : a ≠ r ∧ b ≠ r := by simpa [regsRead, eq_comm] using hr
    rw [(Effect.add a b).exec_eq, State.reg_setReg_ne s v hra, State.reg_setReg_ne s v hrb, State.setReg_comm _ _ _ hra,
      State.advanced_setReg, if_neg (by simpa [regsWritten] using hra.symm)]
  | mul a b =>
    obtain ⟨hra, hrb⟩ : a ≠ r ∧ b ≠ r := by simpa [regsRead, eq_comm] using hr
    rw [(Effect.mul a b).exec_eq, State.reg_setReg_ne s v hra, State.reg_setReg_ne s v hrb, State.setReg_comm _ _ _ hra,
      State.advanced_setReg, if_neg (by simpa [regsWritten] using hra.symm)]
  | push a =>
    obtain ⟨hr7, hra⟩ : r ≠ 7 ∧ a ≠ r := by simpa [regsRead, eq_comm] using hr
    rw [(Effect.push a).exec_eq, State.spDec_setReg s v hr7, State.sp_setReg_ne s v hr7, State.reg_setReg_ne _ v hra,
      if_neg (by simpa [regsWritten] using hr7)]
    exact congrArg _ (State.advanced_setReg (s.spDec.setMem (s.mem.write (s.sp - 1).toNat (s.spDec.reg a))) r v 2)
  | pop a =>
    have hr7 : r ≠ 7 := by simpa [regsRead] using hr
    rw [(Effect.pop a).exec_eq, State.sp_setReg_ne s v hr7, State.setReg_mem, State.setReg_setReg]
    by_cases hra : r = a <;> simp [regsWritten, hr7, hra, State.spInc_setReg, State.advanced_setReg]
  | call a =>
    obtain ⟨hr7, hra⟩ : r ≠ 7 ∧ a ≠ r := by simpa [regsRead, eq_comm] using hr
    rw [(Effect.call a).exec_eq, State.spDec_setReg s v hr7, State.sp_setReg_ne s v hr7, State.reg_setReg_ne _ v hra,
      if_neg (by simpa [regsWritten] using hr7)]
    rfl
  | ret =>
    have hr7 : r ≠ 7 := by simpa [regsRead] using hr
    rw [Effect.ret.exec_eq, State.spInc_setReg s v hr7, State.sp_setReg_ne s v hr7, if_neg (by simpa [regsWritten] using hr7)]
    rfl

/-! ## The output stream -/

/-- `pc_advance` does not look at the output. -/
theorem State.advanced_withOut (s : State) (o : List Byte) (len : Nat) :
    State.advanced { s with out := o } len = { s.advanced len with out := o } := by
  unfold State.advanced
  split <;> rfl

/-- Settles O40: PRN's row with the output ready appends its register's value; every other row leaves the output, and none
looks at it. -/
theorem outputIsAppendedByPrnAndNeverRead : Obligations.OutputIsAppendedByPrnAndNeverRead := by
  unfold Obligations.OutputIsAppendedByPrnAndNeverRead
  intro i s t h
  have silent (hout : t.out = s.out) (hrun : ∀ o, exec i { s with out := o } = .next { t with out := o }) :
      ∃ e, t.out = s.out ++ e ∧ (e = [] ∨ ∃ r : RegIdx, i = .prn (regByte r) ∧ e = [s.reg r]) ∧
        ∀ o : List Byte, exec i { s with out := o } = .next { t with out := o ++ e } :=
    ⟨[], by simp [hout], .inl rfl, by simpa using hrun⟩
  cases Effect.of_exec h with
  | prnReady a hout =>
    refine ⟨[s.reg a], by simp, .inr ⟨a, rfl, rfl⟩, fun o => ?_⟩
    rw [(Effect.prnReady (s := { s with out := o }) a hout).exec_eq]
    exact congrArg _ (State.advanced_withOut (s.emit (s.reg a)) _ 2)
  | badOperand hbad => exact silent rfl fun o => exec_of_firstBadOperand hbad _
  | hlt => exact silent rfl fun o => rfl
  | prnBlocked a hout => exact silent rfl fun o => (Effect.prnBlocked (s := { s with out := o }) a hout).exec_eq
  | ldi a imm =>
    exact silent (by simp) fun o => (Effect.ldi a imm).exec_eq.trans (congrArg _ (State.advanced_withOut (s.setReg a imm) o 3))
  | add a b =>
    exact silent (by simp) fun o => (Effect.add a b).exec_eq.trans (congrArg _ (State.advanced_withOut (s.setReg a _) o 3))
  | mul a b =>
    exact silent (by simp) fun o => (Effect.mul a b).exec_eq.trans (congrArg _ (State.advanced_withOut (s.setReg a _) o 3))
  | push a =>
    exact silent (by simp) fun o => (Effect.push a).exec_eq.trans (congrArg _ (State.advanced_withOut (s.spDec.setMem _) o 2))
  | pop a =>
    exact silent (by simp) fun o => (Effect.pop a).exec_eq.trans (congrArg _ (State.advanced_withOut (s.setReg a _).spInc o 2))
  | call a => exact silent rfl fun o => (Effect.call a).exec_eq
  | ret => exact silent rfl fun o => Effect.ret.exec_eq

/-! ## UnsupportedOperation (R142) -/

theorem State.advanced_fault_unsupported {s : State} {len : Nat} {op : AluOp}
    (h : (s.advanced len).fault = some (.unsupportedOperation op)) : s.fault = some (.unsupportedOperation op) := by
  rw [State.advanced_fault] at h
  split at h
  · exact h
  · simp at h

/-- No row records an UnsupportedOperation. -/
theorem Effect.unsupported_was_before {s t : State} {i : Instr} {op : AluOp} (h : Effect s i t)
    (ht : t.fault = some (.unsupportedOperation op)) : s.fault = some (.unsupportedOperation op) := by
  cases h with
  | badOperand | prnBlocked => simp at ht
  | hlt | call | ret => exact ht
  | ldi | add | mul | prnReady | push | pop => simpa using State.advanced_fault_unsupported ht

/-- Settles O16: the ALU by its definition, the instructions by their rows. -/
theorem noInstructionRequestsAnUnsupportedOperation : Obligations.NoInstructionRequestsAnUnsupportedOperation := by
  unfold Obligations.NoInstructionRequestsAnUnsupportedOperation
  exact ⟨fun _ _ _ => rfl, fun _ _ _ _ h => (Effect.of_exec h).unsupported_was_before⟩

/-- Neither fetch nor decode records an UnsupportedOperation. -/
theorem fetchDecode_ne_unsupported (p : OpcodeParams) (s : State) (op : AluOp) :
    fetchDecode p s ≠ .error (.unsupportedOperation op) := by
  rcases fetchDecode_cases p s with ⟨-, h⟩ | ⟨-, -, h⟩ | ⟨-, i, -, h⟩ <;> simp [h]

/-- No step ends in an UnsupportedOperation. -/
theorem stepWith_ne_unsupported {p : OpcodeParams} {s t : State} (h : stepWith p s = .next t) (op : AluOp) :
    t.fault ≠ some (.unsupportedOperation op) := by
  intro ht
  obtain ⟨⟨-, hnone⟩, ⟨i, -, hexec⟩ | ⟨f, hfetch, rfl⟩⟩ := stepWith_cases h
  · simpa [hnone] using (Effect.of_exec hexec).unsupported_was_before ht
  · obtain rfl : f = .unsupportedOperation op := by simpa using ht
    exact fetchDecode_ne_unsupported p s op hfetch

/-- Settles O22: the bit vector laws of sum and product, the pointer's moves, and what a write reduces. -/
theorem arithmeticIsExactModulo256 : Obligations.ArithmeticIsExactModulo256 := by
  unfold Obligations.ArithmeticIsExactModulo256
  refine ⟨fun va vb => ⟨_, alu_add va vb, BitVec.toNat_add .., BitVec.toInt_add ..⟩,
    fun va vb => ⟨_, alu_mul va vb, BitVec.toNat_mul .., BitVec.toInt_mul ..⟩,
    fun s => ⟨s.sp_spDec_toNat, s.sp_spInc_toNat⟩, fun m m' a v h => ?write, fun _ _ _ => rfl,
    fun p s t op h => stepWith_ne_unsupported h op⟩
  case write =>
    by_cases ha : a ≤ 255
    · rw [memWrite_ok m v ha] at h
      cases h
      rw [Memory.read_write_same, BitVec.toNat_ofNat]
    · rw [memWrite_error m v (Nat.not_le.mp ha)] at h
      cases h

end Sys2Proof.Machine
end

section
/-! PROOFS. The step of a running core (40_core_units.md sections 1 to 3): what it runs, which fault it records, when it
halts. -/

namespace Sys2Proof.Machine

theorem stepWith_of_fetchDecode_ok {p : OpcodeParams} {s : State} {i : Instr} (hrun : s.Running)
    (h : fetchDecode p s = .ok i) : stepWith p s = exec i s := by
  obtain ⟨hhalted, hfault⟩ := hrun
  simp [stepWith, State.runState, hhalted, hfault, h]

theorem stepWith_of_fetchDecode_error {p : OpcodeParams} {s : State} {f : FaultRecord} (hrun : s.Running)
    (h : fetchDecode p s = .error f) : stepWith p s = .next (s.setFault f) := by
  obtain ⟨hhalted, hfault⟩ := hrun
  simp [stepWith, State.runState, hhalted, hfault, h, raise]

/-- The decoder's answer on the three bytes from pc. -/
def decodeAtPc (p : OpcodeParams) (s : State) : Except DecodeError Instr :=
  decode p (s.mem.read s.pc.toNat) (s.mem.read (s.pc.toNat + 1)) (s.mem.read (s.pc.toNat + 2))

theorem fetchDecode_high (p : OpcodeParams) {s : State} (h : 253 < s.pc.toNat) :
    fetchDecode p s = .error (.outOfBounds 256) := by
  simp [fetchDecode, fetch_error h]

theorem fetchDecode_of_decode_ok {p : OpcodeParams} {s : State} {i : Instr} (hpc : s.pc.toNat ≤ 253)
    (h : decodeAtPc p s = .ok i) : fetchDecode p s = .ok i := by
  rw [decodeAtPc] at h
  simp [fetchDecode, fetch_ok hpc, h]

theorem fetchDecode_of_decode_error {p : OpcodeParams} {s : State} {e : DecodeError} (hpc : s.pc.toNat ≤ 253)
    (h : decodeAtPc p s = .error e) : fetchDecode p s = .error (.unknownOpcode (s.mem.read s.pc.toNat) s.pc) := by
  rw [decodeAtPc] at h
  simp [fetchDecode, fetch_ok hpc, h]

/-- An instruction is fetched at pc up to 253 only, and it is the decoder's. -/
theorem decodeAtPc_of_fetchDecode_ok {p : OpcodeParams} {s : State} {i : Instr} (h : fetchDecode p s = .ok i) :
    s.pc.toNat ≤ 253 ∧ decodeAtPc p s = .ok i := by
  rcases fetchDecode_cases p s with ⟨-, he⟩ | ⟨-, -, he⟩ | ⟨hpc, j, hd, he⟩
  · simp [he] at h
  · simp [he] at h
  · obtain rfl : j = i := by simpa [he] using h
    exact ⟨hpc, hd⟩

theorem stepWith_of_decodeAtPc {p : OpcodeParams} {s : State} {i : Instr} (hrun : s.Running) (hpc : s.pc.toNat ≤ 253)
    (h : decodeAtPc p s = .ok i) : stepWith p s = exec i s :=
  stepWith_of_fetchDecode_ok hrun (fetchDecode_of_decode_ok hpc h)

/-- Settles O8: the fetch gives the three bytes and the decoder the instruction. -/
theorem stepRunsTheDecodedInstruction : Obligations.StepRunsTheDecodedInstruction := by
  unfold Obligations.StepRunsTheDecodedInstruction
  exact ⟨fun s i hrun hpc h => stepWith_of_decodeAtPc hrun hpc h, fun p s i hrun hpc h => stepWith_of_decodeAtPc hrun hpc h⟩

/-- Settles O10: the third fetch read, or the second, is of address 256. -/
theorem fetchPastTheTopFaults : Obligations.FetchPastTheTopFaults := by
  unfold Obligations.FetchPastTheTopFaults
  exact fun p s hrun hpc => stepWith_of_fetchDecode_error hrun (fetchDecode_high p hpc)

/-- Settles O11: the decoder fails on exactly these bytes. -/
theorem unknownOpcodeFaults : Obligations.UnknownOpcodeFaults := by
  unfold Obligations.UnknownOpcodeFaults
  exact fun p s hrun hpc hop =>
    stepWith_of_fetchDecode_error hrun (fetchDecode_of_decode_error hpc (decode_eq_error_iff.mpr ⟨rfl, hop⟩))

theorem stepWith_of_halted (p : OpcodeParams) {s : State} (h : s.Succeeded) : stepWith p s = .fault .halted := by
  obtain ⟨hhalted, hfault⟩ := h
  simp [stepWith, State.runState, hhalted, hfault]

theorem stepWith_of_faulted (p : OpcodeParams) {s : State} {f : FaultRecord} (h : s.fault = some f) :
    stepWith p s = .fault (.faulted f) := by
  simp [stepWith, State.runState, h]

/-- Settles O14: the run state alone stops the step. -/
theorem terminalStatesHaveNoStep : Obligations.TerminalStatesHaveNoStep := by
  unfold Obligations.TerminalStatesHaveNoStep
  exact ⟨fun p _ => stepWith_of_halted p, fun p _ _ => stepWith_of_faulted p⟩

/-! ## Placed words and pushed bytes as instructions (logs 11 and 20; 20_memory.md section 4) -/

theorem decode_of_decodeTableWord {nbits w : Nat} {i : Instr} (h : decodeTableWord nbits w = some i) :
    decode defaultOpcodes (tableByte nbits w 0) (tableByte nbits w 1) (tableByte nbits w 2) = .ok i := by
  rw [decodeTableWord] at h
  split at h
  · rename_i hd
    rw [hd, Option.some.inj h]
  · simp at h

/-- Settles O9: the three bytes placed are the three fetched. -/
theorem placedWordIsRunNext : Obligations.PlacedWordIsRunNext := by
  unfold Obligations.PlacedWordIsRunNext
  intro s nbits w i hrun hpc hword
  have hread : ∀ k, (s.withFetchWord nbits w).mem.read (s.pc.toNat + k) =
      [tableByte nbits w 0, tableByte nbits w 1, tableByte nbits w 2].getD k (s.mem.read (s.pc.toNat + k)) :=
    Memory.read_writeBytes_add s.mem (by simp; omega)
  refine ⟨stepWith_of_decodeAtPc hrun hpc ?decoded, rfl, fun a ha => ?outside⟩
  case decoded =>
    have hbytes := decode_of_decodeTableWord hword
    rwa [← show _ = tableByte nbits w 0 from hread 0, ← show _ = tableByte nbits w 1 from hread 1,
      ← show _ = tableByte nbits w 2 from hread 2] at hbytes
  case outside =>
    rcases ha with hbelow | habove
    · exact Memory.read_writeBytes_below s.mem _ _ hbelow
    · obtain ⟨k, rfl⟩ := Nat.exists_eq_add_of_lt habove
      rw [show s.pc.toNat + 2 + k + 1 = s.pc.toNat + (k + 3) by omega]
      exact hread (k + 3)

/-- The fetch takes the opcode byte from the cell at pc, whatever is there. -/
theorem exists_fetch_eq_ok {s : State} (hpc : s.pc.toNat ≤ 253) {v : Byte} (hread : s.mem.read s.pc.toNat = v) :
    ∃ opa opb, fetch s = .ok (v, opa, opb) := by
  rw [fetch_ok hpc, hread]
  exact ⟨_, _, rfl⟩

/-- Settles O20: the cell that the push writes is the one at the next pc, PUSH's pc + 2 or CALL's target. -/
theorem nextFetchSeesAPushedByte : Obligations.NextFetchSeesAPushedByte := by
  unfold Obligations.NextFetchSeesAPushedByte
  refine ⟨fun s a hrun hpc hop hreg hsp => ?push, fun s a hrun hpc hop hreg htarget hsp => ?call⟩
  case push =>
    have hdecode : decodeAtPc defaultOpcodes s = .ok (.push (regByte a)) := by
      rw [decodeAtPc, hop, hreg]
      rfl
    have hstep : step s = _ := (stepWith_of_decodeAtPc hrun (by omega) hdecode).trans (Effect.push a).exec_eq
    obtain ⟨hnext, hfault⟩ := State.advanced_completes
      (s := s.spDec.setMem (s.mem.write (s.sp - 1).toNat (s.spDec.reg a))) (len := 2) (show s.pc.toNat + 2 ≤ 255 by omega)
    have hpc' : _ = s.spDec.sp.toNat := hnext.trans hsp.symm
    refine ⟨_, Exists.imp (fun opa => Exists.imp fun opb hfetch => ⟨hstep, ⟨?_, hfault.trans hrun.2⟩, hfetch⟩)
      (exists_fetch_eq_ok (by omega) ?_)⟩
    · simpa using hrun.1
    · rw [hpc', State.advanced_mem, State.sp_spDec]
      exact Memory.read_write_same ..
  case call =>
    have hdecode : decodeAtPc defaultOpcodes s = .ok (.call (regByte a)) := by
      rw [decodeAtPc, hop, hreg]
      rfl
    have hstep : step s = _ := (stepWith_of_decodeAtPc hrun hpc hdecode).trans (Effect.call a).exec_eq
    refine ⟨_, Exists.imp (fun opa => Exists.imp fun opb hfetch => ⟨hstep, hrun, hfetch⟩) (exists_fetch_eq_ok ?_ ?_)⟩
    · rwa [State.setPc_pc, htarget]
    · rw [State.setPc_pc, htarget, State.sp_spDec]
      exact (Memory.read_write_same ..).trans (BitVec.eq_of_toNat_eq (by simp))

/-! ## The faults of a step (60_exceptions.md sections 3 and 4) -/

/-- The fault an instruction takes in a running state, by the part of the list of R148 that follows the decoder. -/
def execFault (i : Instr) (s : State) : Option FaultRecord :=
  (firstBadOperand i).elim
    (if isPrn i && !s.outReady then some .outputUnavailable
      else if s.pc.toNat = 253 ∧ pcStride i = some 3 then some (.outOfBounds 256) else none)
    fun b => some (.registerIndexOutOfRange b)

theorem firstFault_high (p : OpcodeParams) {s : State} (h : 253 < s.pc.toNat) :
    firstFault p s = some (.outOfBounds 256) := by
  simp [firstFault, h]

theorem firstFault_of_decode_error {p : OpcodeParams} {s : State} {e : DecodeError} (hpc : s.pc.toNat ≤ 253)
    (h : decodeAtPc p s = .error e) : firstFault p s = some (.unknownOpcode (s.mem.read s.pc.toNat) s.pc) := by
  rw [decodeAtPc] at h
  simp [firstFault, Nat.not_lt.mpr hpc, h]

theorem firstFault_of_decode_ok {p : OpcodeParams} {s : State} {i : Instr} (hpc : s.pc.toNat ≤ 253)
    (h : decodeAtPc p s = .ok i) : firstFault p s = execFault i s := by
  rw [decodeAtPc] at h
  simp only [firstFault, Nat.not_lt.mpr hpc, if_false, h, execFault, firstBadOperand]
  cases i.regOperands.find? (fun b => decide (7 < b.toNat)) <;> rfl

/-- `pc_advance(2)` from where an instruction is fetched is never late. -/
theorem State.advanced_two_fault {s : State} (hpc : s.pc.toNat ≤ 253) : (s.advanced 2).fault = s.fault :=
  (State.advanced_completes (by omega)).2

/-- `pc_advance(3)` from where an instruction is fetched is late at 253 alone. -/
theorem State.advanced_three_fault {s : State} (hpc : s.pc.toNat ≤ 253) :
    (s.advanced 3).fault = if s.pc.toNat = 253 then some (.outOfBounds 256) else s.fault := by
  rw [State.advanced_fault]
  by_cases hlate : s.pc.toNat = 253
  · simp [hlate]
  · rw [if_neg hlate, if_pos (by omega)]

/-- Each row records the first fault of the list. -/
theorem Effect.fault_eq {s t : State} {i : Instr} (h : Effect s i t) (hs : s.fault = none) (hpc : s.pc.toNat ≤ 253) :
    t.fault = execFault i s := by
  cases h with
  | badOperand hbad => simp [execFault, hbad]
  | prnReady a hout =>
    rw [State.advanced_two_fault]
    · simp [execFault, firstBadOperand, Instr.regOperands, pcStride, hs, hout]
    · exact hpc
  | prnBlocked a hout => simp [execFault, firstBadOperand, Instr.regOperands, isPrn, hout]
  | hlt | call | ret => simp [execFault, firstBadOperand, Instr.regOperands, isPrn, pcStride, hs]
  | push | pop =>
    rw [State.advanced_two_fault]
    · simp [execFault, firstBadOperand, Instr.regOperands, isPrn, pcStride, hs]
    · exact hpc
  | ldi | add | mul =>
    rw [State.advanced_three_fault]
    · simp [execFault, firstBadOperand, Instr.regOperands, isPrn, pcStride, hs]
    · exact hpc

/-- Settles O12: the fetch and the decoder come first, then the list the instruction's row follows. -/
theorem stepRecordsTheFirstFaultInOrder : Obligations.StepRecordsTheFirstFaultInOrder := by
  unfold Obligations.StepRecordsTheFirstFaultInOrder
  intro p s hrun
  by_cases hpc : s.pc.toNat ≤ 253
  · cases hd : decodeAtPc p s with
    | error e =>
      exact ⟨_, stepWith_of_fetchDecode_error hrun (fetchDecode_of_decode_error hpc hd),
        (firstFault_of_decode_error hpc hd).symm⟩
    | ok i =>
      obtain ⟨t, ht⟩ := exists_effect i s
      exact ⟨t, (stepWith_of_decodeAtPc hrun hpc hd).trans ht.exec_eq,
        (ht.fault_eq hrun.2 hpc).trans (firstFault_of_decode_ok hpc hd).symm⟩
  · have hhigh := Nat.not_le.mp hpc
    exact ⟨_, stepWith_of_fetchDecode_error hrun (fetchDecode_high p hhigh), (firstFault_high p hhigh).symm⟩

/-- Late at 253, `pc_advance(3)` only records the fault. -/
theorem State.late_of_advanced_three_fault {s : State} {f : FaultRecord} (h : (s.advanced 3).fault = some f)
    (hs : s.fault = none) (hpc : s.pc.toNat ≤ 253) :
    s.pc.toNat = 253 ∧ f = .outOfBounds 256 ∧ s.advanced 3 = s.setFault f := by
  rw [State.advanced_three_fault hpc] at h
  split at h
  · rename_i hlate
    cases h
    exact ⟨hlate, rfl, by rw [State.advanced_late (by omega), hlate]⟩
  · simp [hs] at h

/-- All that an instruction of a running core leaves when it faults: the record on the state as it was, or, late, on the
state with the one register written (R149). -/
theorem Effect.cases_of_fault {s t : State} {i : Instr} {f : FaultRecord} (h : Effect s i t) (hs : s.fault = none)
    (hpc : s.pc.toNat ≤ 253) (ht : t.fault = some f) :
    (∃ b, firstBadOperand i = some b ∧ f = .registerIndexOutOfRange b ∧ t = s.setFault f) ∨
      (isPrn i = true ∧ s.outReady = false ∧ f = .outputUnavailable ∧ t = s.setFault f) ∨
      (s.pc.toNat = 253 ∧ pcStride i = some 3 ∧ f = .outOfBounds 256 ∧
        ∃ a v, regsWritten i = [a] ∧ t = (s.setReg a v).setFault f) := by
  cases h with
  | badOperand hbad =>
    cases ht
    exact .inl ⟨_, hbad, rfl, rfl⟩
  | prnBlocked a hout =>
    cases ht
    exact .inr (.inl ⟨rfl, hout, rfl, rfl⟩)
  | hlt | call | ret => simp [hs] at ht
  | prnReady | push | pop =>
    rw [State.advanced_two_fault] at ht
    · simp [hs] at ht
    · exact hpc
  | ldi | add | mul =>
    obtain ⟨hlate, hf, he⟩ := State.late_of_advanced_three_fault ht hs hpc
    exact .inr (.inr ⟨hlate, rfl, hf, _, _, namedReg_regByte _, he⟩)

/-- Settles O13: a fault of the fetch or the decoder writes nothing, one of the instruction by its cases. -/
theorem faultedStepKeepsOnlyEarlierWrites : Obligations.FaultedStepKeepsOnlyEarlierWrites := by
  unfold Obligations.FaultedStepKeepsOnlyEarlierWrites
  intro p s t f h ht
  obtain ⟨⟨-, hnone⟩, ⟨i, hfetch, hexec⟩ | ⟨g, -, rfl⟩⟩ := stepWith_cases h
  · obtain ⟨hpc, -⟩ := decodeAtPc_of_fetchDecode_ok hfetch
    rcases (Effect.of_exec hexec).cases_of_fault hnone hpc ht with
      ⟨b, -, -, rfl⟩ | ⟨-, -, -, rfl⟩ | ⟨hlate, hstride, rfl, a, v, hwritten, rfl⟩
    · exact .inl rfl
    · exact .inl rfl
    · refine .inr ⟨rfl, hlate, i, a, hfetch, hstride, hwritten, ?_⟩
      rw [State.reg_setFault, State.reg_setReg_same]
      rfl
  · cases ht
    exact .inl rfl

/-! ## Halting (10_state.md section 4) -/

/-- Of the rows, HLT's alone halts. -/
theorem Effect.halted_iff {s t : State} {i : Instr} (h : Effect s i t) (hs : s.halted = false) :
    t.halted = true ↔ i = .hlt := by
  cases h with
  | badOperand hbad =>
    have hne : i ≠ .hlt := by
      rintro rfl
      cases hbad
    simp [hs, hne]
  | hlt => simp
  | ldi | prnReady | prnBlocked | add | mul | push | pop | call | ret => simp [hs]

theorem decode_hlt (p : OpcodeParams) (a b : Byte) : decode p 0x01 a b = .ok .hlt := rfl

/-- Only HLT's byte decodes to HLT. -/
theorem decode_eq_hlt_iff {p : OpcodeParams} {ir a b : Byte} : decode p ir a b = .ok .hlt ↔ ir = 0x01 := by
  constructor
  · intro h
    simpa [decodeRows, opcHlt] using mem_decodeRows_of_decode h
  · rintro rfl
    exact decode_hlt p a b

/-- Settles O15: an executed instruction halts when it is HLT, and a fault of the fetch or the decoder never does. -/
theorem onlyHltHalts : Obligations.OnlyHltHalts := by
  unfold Obligations.OnlyHltHalts
  intro p s t _ ⟨hhalted, _⟩ h
  obtain ⟨-, ⟨i, hfetch, hexec⟩ | ⟨f, hfetch, rfl⟩⟩ := stepWith_cases h
  · obtain ⟨hpc, hd⟩ := decodeAtPc_of_fetchDecode_ok hfetch
    have hop : decodeAtPc p s = .ok .hlt ↔ s.mem.read s.pc.toNat = 0x01 := decode_eq_hlt_iff
    rw [(Effect.of_exec hexec).halted_iff hhalted, and_iff_right hpc, ← hop, hd, Except.ok.injEq]
  · refine iff_of_false (by simp [hhalted]) fun ⟨hpc, hop⟩ => ?_
    have hd : decodeAtPc p s = .ok .hlt := decode_eq_hlt_iff.mpr hop
    simp [fetchDecode_of_decode_ok hpc hd] at hfetch

/-- Settles O23: HLT's row, and the halted state's missing step. -/
theorem hltHaltsAndEndsTheRun : Obligations.HltHaltsAndEndsTheRun := by
  unfold Obligations.HltHaltsAndEndsTheRun
  refine ⟨fun s => ⟨_, Effect.hlt.exec_eq, rfl, rfl, rfl, rfl, rfl, rfl⟩, fun s hrun hpc hop => ?_⟩
  have hend : s.halt.Succeeded := ⟨rfl, hrun.2⟩
  exact ⟨s.halt, (stepWith_of_decodeAtPc hrun hpc (decode_eq_hlt_iff.mpr hop)).trans Effect.hlt.exec_eq, hend, rfl,
    stepWith_of_halted defaultOpcodes hend⟩

/-! ## The invariant -/

/-- Settles O1: the reset state's fields, register by register. -/
theorem resetGivesTheStatedValues : Obligations.ResetGivesTheStatedValues := by
  unfold Obligations.ResetGivesTheStatedValues
  exact ⟨by decide, rfl, fun _ => rfl, rfl, rfl, rfl, rfl⟩

/-- With no fault recorded, the invariant is the canonical form of memory. -/
theorem State.inv_of_no_fault {p : OpcodeParams} {s : State} (hmem : s.mem.wf) (hfault : s.fault = none) : s.Inv p :=
  ⟨hmem, by simp [hfault]⟩

theorem Memory.wf_nil : Memory.wf [] := ⟨List.Pairwise.nil, by simp⟩

/-- Settles O43: reset has no cell listed and no fault. -/
theorem resetMeetsTheInvariant : Obligations.ResetMeetsTheInvariant := by
  unfold Obligations.ResetMeetsTheInvariant
  exact fun p => ⟨State.inv_of_no_fault Memory.wf_nil rfl, rfl, rfl⟩

/-- Settles O44: the load changes memory alone, keeping its form. -/
theorem launchMeetsTheInvariant : Obligations.LaunchMeetsTheInvariant := by
  unfold Obligations.LaunchMeetsTheInvariant
  intro p bytes s h
  obtain ⟨-, rfl⟩ : _ ∧ State.reset.setMem _ = s := by simpa [load] using h
  exact ⟨State.inv_of_no_fault (Memory.wf_writeBytes Memory.wf_nil 0 bytes) rfl, rfl, rfl⟩

/-- A push's address is a byte, so every row keeps the canonical form. -/
theorem Effect.mem_wf {s t : State} {i : Instr} (h : Effect s i t) (hs : s.mem.wf) : t.mem.wf := by
  cases h with
  | badOperand | hlt | ldi | prnReady | prnBlocked | add | mul | pop | ret => simpa using hs
  | push =>
    rw [State.advanced_mem]
    exact Memory.wf_write hs (BitVec.isLt _) _
  | call => exact Memory.wf_write hs (BitVec.isLt _) _

theorem opcode_mem_recognised_of_decode {p : OpcodeParams} {ir a b : Byte} {i : Instr} (h : decode p ir a b = .ok i) :
    ir ∈ p.recognised := by
  rw [← decodeRows_keys p a b]
  exact List.mem_map_of_mem (mem_decodeRows_of_decode h)

/-- A decoded instruction's register operands are among the fetched operand bytes. -/
theorem regOperands_subset_of_decode {p : OpcodeParams} {ir a b : Byte} {i : Instr} (h : decode p ir a b = .ok i) :
    i.regOperands ⊆ [a, b] := by
  have hrows : ∀ row ∈ decodeRows p a b, row.2.regOperands ⊆ [a, b] := by simp [decodeRows, Instr.regOperands]
  exact hrows _ (mem_decodeRows_of_decode h)

/-- What decodes to a PRN has PRN's byte. -/
theorem opcode_of_decode_prn {p : OpcodeParams} {ir a b : Byte} {i : Instr} (h : decode p ir a b = .ok i)
    (hprn : isPrn i = true) : ir = opcPrn := by
  have hrows : ∀ row ∈ decodeRows p a b, isPrn row.2 = true → row.1 = opcPrn := by simp [decodeRows, isPrn]
  exact hrows _ (mem_decodeRows_of_decode h) hprn

/-- A fault of the fetch or the decoder agrees with the state it is recorded in. -/
theorem faultAgrees_of_fetchDecode_error {p : OpcodeParams} {s : State} {f : FaultRecord} (h : fetchDecode p s = .error f) :
    FaultAgrees p (s.setFault f) f := by
  rcases fetchDecode_cases p s with ⟨hpc, he⟩ | ⟨hpc, ⟨e, hd⟩, he⟩ | ⟨-, i, -, he⟩ <;> rw [h] at he <;> cases he
  · exact ⟨rfl, Nat.le_of_lt hpc⟩
  · exact ⟨rfl, hpc, rfl, (decode_eq_error_iff.mp hd).2⟩

/-- A fault of the executed instruction leaves the core not halted and agrees with the state it leaves. -/
theorem Effect.faultAgrees {p : OpcodeParams} {s t : State} {i : Instr} {f : FaultRecord} (h : Effect s i t)
    (hrun : s.Running) (hpc : s.pc.toNat ≤ 253) (hd : decodeAtPc p s = .ok i) (ht : t.fault = some f) :
    t.halted = false ∧ FaultAgrees p t f := by
  obtain ⟨hhalted, hnone⟩ := hrun
  rcases h.cases_of_fault hnone hpc ht with
    ⟨b, hbad, rfl, rfl⟩ | ⟨hprn, hout, rfl, rfl⟩ | ⟨hlate, -, rfl, a, v, -, rfl⟩
  · obtain ⟨hmem, hb⟩ := mem_of_firstBadOperand hbad
    have hoperand := regOperands_subset_of_decode hd hmem
    refine ⟨hhalted, hb, hpc, opcode_mem_recognised_of_decode hd, ?_⟩
    simpa [eq_comm] using hoperand
  · exact ⟨hhalted, hout, hpc, opcode_of_decode_prn hd hprn⟩
  · exact ⟨hhalted, rfl, Nat.le_of_eq hlate.symm⟩

/-- Every step keeps the invariant: a step that leaves a fault took it from the state the fault agrees with. -/
theorem stepWith_inv {p : OpcodeParams} {s t : State} (hs : s.Inv p) (h : stepWith p s = .next t) : t.Inv p := by
  obtain ⟨hmem, -⟩ := hs
  obtain ⟨hrun, ⟨i, hfetch, hexec⟩ | ⟨f, hfetch, rfl⟩⟩ := stepWith_cases h
  · obtain ⟨hpc, hd⟩ := decodeAtPc_of_fetchDecode_ok hfetch
    have he := Effect.of_exec hexec
    exact ⟨he.mem_wf hmem, fun f hf => he.faultAgrees hrun hpc hd hf⟩
  · refine ⟨hmem, fun g hg => ?_⟩
    obtain rfl : f = g := by simpa using hg
    exact ⟨hrun.1, faultAgrees_of_fetchDecode_error hfetch⟩

/-- Settles O45: both clauses are the law of one step, the second at the default opcodes. -/
theorem everyStepKeepsTheInvariant : Obligations.EveryStepKeepsTheInvariant := by
  unfold Obligations.EveryStepKeepsTheInvariant
  exact ⟨fun _ _ _ => stepWith_inv, fun _ _ => stepWith_inv⟩

end Sys2Proof.Machine
end

section
/-! PROOFS. The stack discipline shared by PUSH, POP, CALL and RET (43_stack.md, 44_call_return.md). -/

namespace Sys2Proof.Machine

theorem execAll_cons {i : Instr} {s t : State} (is : List Instr) (h : exec i s = .next t) :
    execAll (i :: is) s = execAll is t := by
  simp [execAll, h]

theorem execAll_append {is : List Instr} {s t : State} (js : List Instr) (h : execAll is s = .next t) :
    execAll (is ++ js) s = execAll js t := by
  induction is generalizing s with
  | nil =>
    cases h
    rfl
  | cons i is ih =>
    obtain ⟨u, hu⟩ := exists_effect i s
    rw [execAll_cons is hu.exec_eq] at h
    rw [List.cons_append, execAll_cons _ hu.exec_eq, ih h]

/-! ## A push and a pop with room for pc + 2 -/

/-- The state a completed PUSH of another register than the pointer leaves. -/
structure Pushed (a : RegIdx) (s t : State) : Prop where
  exec_eq : exec (.push (regByte a)) s = .next t
  sp_eq : t.sp = s.sp - 1
  mem_eq : t.mem = s.mem.write t.sp.toNat (s.reg a)
  reg_eq : ∀ r, r ≠ 7 → t.reg r = s.reg r
  pc_eq : t.pc.toNat = s.pc.toNat + 2
  fault_eq : t.fault = s.fault

theorem exists_pushed {a : RegIdx} (ha : a ≠ 7) {s : State} (hroom : s.pc.toNat + 2 ≤ 255) : ∃ t, Pushed a s t := by
  obtain ⟨hpc, hfault⟩ := State.advanced_completes
    (s := s.spDec.setMem (s.mem.write (s.sp - 1).toNat (s.spDec.reg a))) (len := 2) hroom
  exact ⟨_, {
    exec_eq := (Effect.push a).exec_eq
    sp_eq := by simp
    mem_eq := by rw [State.sp_advanced, State.advanced_mem, State.sp_setMem, State.sp_spDec, ← s.reg_spDec_ne ha]; rfl
    reg_eq := fun r hr => by simp [State.reg_spDec_ne s hr]
    pc_eq := hpc
    fault_eq := hfault }⟩

/-- The state a completed POP into another register than the pointer leaves. -/
structure Popped (b : RegIdx) (s t : State) : Prop where
  exec_eq : exec (.pop (regByte b)) s = .next t
  sp_eq : t.sp = s.sp + 1
  popped_eq : t.reg b = s.mem.read s.sp.toNat
  reg_eq : ∀ r, r ≠ 7 → r ≠ b → t.reg r = s.reg r
  mem_eq : t.mem = s.mem
  pc_eq : t.pc.toNat = s.pc.toNat + 2
  fault_eq : t.fault = s.fault

theorem exists_popped {b : RegIdx} (hb : b ≠ 7) {s : State} (hroom : s.pc.toNat + 2 ≤ 255) : ∃ t, Popped b s t := by
  obtain ⟨hpc, hfault⟩ := State.advanced_completes
    (s := (s.setReg b (s.mem.read s.sp.toNat)).spInc) (len := 2) hroom
  exact ⟨_, {
    exec_eq := (Effect.pop b).exec_eq
    sp_eq := by simp [State.sp_setReg_ne s _ hb]
    popped_eq := by simp [State.reg_spInc_ne _ hb]
    reg_eq := fun r hr hrb => by simp [State.reg_spInc_ne _ hr, State.reg_setReg_ne s _ hrb]
    mem_eq := by simp
    pc_eq := hpc
    fault_eq := hfault }⟩

/-! ## Balanced uses (R122) -/

/-- How far above the pointer a byte address lies, going up modulo 256. -/
def State.aboveSp (s : State) (c : Byte) : Nat := (c - s.sp).toNat

theorem State.aboveSp_sp (s : State) : s.aboveSp s.sp = 0 := by
  simp [State.aboveSp]

theorem State.aboveSp_congr {s t : State} (h : t.sp = s.sp) (c : Byte) : t.aboveSp c = s.aboveSp c := by
  rw [State.aboveSp, State.aboveSp, h]

/-- Under a decremented pointer every cell but the new one lies one further up. -/
theorem State.aboveSp_of_decremented {s t : State} (h : t.sp = s.sp - 1) {c : Byte} (hc : s.aboveSp c < 255) :
    t.aboveSp c = s.aboveSp c + 1 := by
  rw [State.aboveSp] at hc
  rw [State.aboveSp, State.aboveSp, h, show c - (s.sp - 1) = (c - s.sp) + 1 by ring, BitVec.toNat_add]
  exact Nat.mod_eq_of_lt (Nat.succ_lt_succ hc)

/-- What running `is` as a balanced use leaves: the pointer, the fault record, and every cell that lies so far above the
pointer that the pushes, fewer than the instructions, do not wrap onto it. -/
structure BalancedRun (is : List Instr) (s t : State) : Prop where
  run_eq : execAll is s = .next t
  sp_eq : t.sp = s.sp
  mem_eq : ∀ c : Byte, s.aboveSp c + is.length < 256 → t.mem.read c.toNat = s.mem.read c.toNat
  pc_eq : t.pc.toNat = s.pc.toNat + 2 * is.length
  fault_eq : t.fault = s.fault

/-- Wherever the code has room, it runs as a balanced use. -/
def Balanced (is : List Instr) : Prop := ∀ s : State, s.pc.toNat + 2 * is.length ≤ 255 → ∃ t, BalancedRun is s t

theorem balanced_nil : Balanced [] := fun s _ => ⟨s, rfl, rfl, fun _ _ => rfl, rfl, rfl⟩

theorem Balanced.append {is js : List Instr} (hi : Balanced is) (hj : Balanced js) : Balanced (is ++ js) := by
  intro s hroom
  rw [List.length_append] at hroom
  obtain ⟨t, ht⟩ := hi s (by omega)
  have hpc := ht.pc_eq
  obtain ⟨u, hu⟩ := hj t (by omega)
  refine ⟨u, (execAll_append js ht.run_eq).trans hu.run_eq, hu.sp_eq.trans ht.sp_eq, fun c hc => ?_, ?_,
    hu.fault_eq.trans ht.fault_eq⟩
  · rw [List.length_append] at hc
    rw [hu.mem_eq c (by rw [State.aboveSp_congr ht.sp_eq]; omega), ht.mem_eq c (by omega)]
  · rw [hu.pc_eq, hpc, List.length_append]
    omega

/-- The byte under the pointer is there after a balanced use. -/
theorem BalancedRun.top_eq {is : List Instr} {s t : State} (h : BalancedRun is s t) (hlen : is.length < 256) :
    t.mem.read t.sp.toNat = s.mem.read s.sp.toNat := by
  rw [h.sp_eq, h.mem_eq s.sp (by rw [State.aboveSp_sp]; omega)]

/-- A push, a balanced use and a pop are a balanced use, and the pop takes what the push gave. -/
theorem Balanced.push_pop {is : List Instr} (his : Balanced is) {a b : RegIdx} (ha : a ≠ 7) (hb : b ≠ 7) {s : State}
    (hroom : s.pc.toNat + 2 * (is.length + 2) ≤ 255) :
    ∃ t, BalancedRun (.push (regByte a) :: (is ++ [.pop (regByte b)])) s t ∧ t.reg b = s.reg a := by
  obtain ⟨t, ht⟩ := exists_pushed ha (s := s) (by omega)
  have hpc := ht.pc_eq
  obtain ⟨u, hu⟩ := his t (by omega)
  have hpc' := hu.pc_eq
  obtain ⟨w, hw⟩ := exists_popped hb (s := u) (by omega)
  refine ⟨w, ⟨?run, ?pointer, fun c hc => ?memory, ?pc, ?fault⟩, ?value⟩
  case run => rw [execAll_cons _ ht.exec_eq, execAll_append _ hu.run_eq, execAll_cons _ hw.exec_eq, execAll]
  case pointer => rw [hw.sp_eq, hu.sp_eq, ht.sp_eq, sub_add_cancel]
  case memory =>
    simp only [List.length_cons, List.length_append, List.length_nil] at hc
    have habove : t.aboveSp c = s.aboveSp c + 1 := State.aboveSp_of_decremented ht.sp_eq (by omega)
    have hne : c.toNat ≠ t.sp.toNat := fun he => by
      rw [BitVec.eq_of_toNat_eq he, State.aboveSp_sp] at habove
      omega
    rw [hw.mem_eq, hu.mem_eq c (by omega), ht.mem_eq, Memory.read_write_ne _ _ hne]
  case pc =>
    simp only [hw.pc_eq, hpc', hpc, List.length_cons, List.length_append, List.length_nil]
    omega
  case fault => rw [hw.fault_eq, hu.fault_eq, ht.fault_eq]
  case value => rw [hw.popped_eq, hu.top_eq (by omega), ht.mem_eq, Memory.read_write_same]

/-- Every use that does not name the pointer is balanced. -/
theorem StackUse.balanced {u : StackUse} (h : u.sparesSp = true) : Balanced u.code := by
  induction u with
  | done => exact balanced_nil
  | nest a b inner rest ihInner ihRest =>
    simp only [StackUse.sparesSp, Bool.and_eq_true, decide_eq_true_eq] at h
    obtain ⟨⟨⟨ha, hb⟩, hinner⟩, hrest⟩ := h
    have hnest : Balanced (.push (regByte a) :: (inner.code ++ [.pop (regByte b)])) := fun s hroom => by
      obtain ⟨t, ht, -⟩ := (ihInner hinner).push_pop ha hb (s := s) (by simpa using hroom)
      exact ⟨t, ht⟩
    simpa [StackUse.code] using hnest.append (ihRest hrest)

/-! ## The settled statements -/

/-- What CALL leaves on the stack for a RET or a POP to take: pc + 2, modulo 256, under the decremented pointer. -/
theorem exists_called (a : RegIdx) (s : State) :
    ∃ t, exec (.call (regByte a)) s = .next t ∧ t.sp = s.sp - 1 ∧
      t.mem.read t.sp.toNat = BitVec.ofNat 8 (s.pc.toNat + 2) ∧ t.pc = s.spDec.reg a := by
  refine ⟨_, (Effect.call a).exec_eq, s.sp_spDec, ?_, rfl⟩
  rw [State.sp_setPc, State.sp_setMem, State.sp_spDec]
  exact Memory.read_write_same ..

/-- Where every PUSH leaves the pointer and the value, whatever it does to pc. -/
theorem push_sp_and_cell {a : RegIdx} {s t : State} (h : exec (.push (regByte a)) s = .next t) :
    t.mem.read t.sp.toNat = s.spDec.reg a ∧ t.sp.toNat = (s.sp.toNat + 255) % 256 := by
  rw [exec_push, pcAdvance_eq] at h
  cases h
  constructor
  · rw [State.sp_advanced, State.advanced_mem, State.sp_setMem, State.sp_spDec]
    exact Memory.read_write_same ..
  · rw [State.sp_advanced, State.sp_setMem, State.sp_spDec_toNat]

/-- Settles O41: a balanced use by induction on its nesting, the rest by what single pushes and pops leave. -/
theorem stackIsLastInFirstOut : Obligations.StackIsLastInFirstOut := by
  unfold Obligations.StackIsLastInFirstOut
  simp only [State.reg_seven]
  refine ⟨fun a s t h => ?push, fun u s hu hroom => ?use, fun a b u s ha hb hu hroom => ?around,
    fun a b c d s ha hb hc hd hcd hroom => ?reverse, fun a s ha hroom => ?pushRet, fun a b s hb hpc htarget => ?callPop,
    fun a => ?reset⟩
  case push =>
    obtain ⟨hcell, hsp⟩ := push_sp_and_cell h
    refine ⟨hcell, hsp, fun hroom => ?_⟩
    rw [exec_push, pcAdvance_eq] at h
    cases h
    exact (State.advanced_completes (s := s.spDec.setMem _) hroom).2
  case use =>
    obtain ⟨t, ht⟩ := StackUse.balanced hu s hroom
    exact ⟨t, ht.run_eq, ht.sp_eq, ht.fault_eq⟩
  case around =>
    obtain ⟨t, ht, hvalue⟩ := (StackUse.balanced hu).push_pop ha hb hroom
    exact ⟨t, ht.run_eq, hvalue, ht.sp_eq⟩
  case reverse =>
    obtain ⟨t, ht⟩ := exists_pushed ha (s := s) (by omega)
    have hpc := ht.pc_eq
    obtain ⟨u, hu, hvalue⟩ := balanced_nil.push_pop hb hc (s := t) (by simp; omega)
    have hpc' := hu.pc_eq
    obtain ⟨w, hw⟩ := exists_popped hd (s := u) (by simp at hpc'; omega)
    refine ⟨w, ?_, ?_, ?_⟩
    · rw [execAll_cons _ ht.exec_eq]
      exact (execAll_append [.pop (regByte d)] hu.run_eq).trans (execAll_cons [] hw.exec_eq)
    · rw [hw.reg_eq c hc hcd, hvalue, ht.reg_eq b hb]
    · rw [hw.popped_eq, hu.top_eq (by simp), ht.mem_eq, Memory.read_write_same]
  case pushRet =>
    obtain ⟨t, ht⟩ := exists_pushed ha hroom
    refine ⟨_, (execAll_cons _ ht.exec_eq).trans (execAll_cons [] Effect.ret.exec_eq), ?_, ?_⟩
    · rw [State.setPc_pc, ht.mem_eq, Memory.read_write_same]
    · rw [State.sp_setPc, State.sp_spInc, ht.sp_eq, sub_add_cancel]
  case callPop =>
    obtain ⟨t, hcall, hsp, htop, hpc'⟩ := exists_called a s
    obtain ⟨u, hu⟩ := exists_popped hb (s := t) (by rw [hpc']; omega)
    refine ⟨u, (execAll_cons _ hcall).trans (execAll_cons [] hu.exec_eq), ?_, ?_⟩
    · rw [hu.popped_eq, htop, BitVec.toNat_ofNat, Nat.mod_eq_of_lt (by omega)]
    · rw [hu.sp_eq, hsp, sub_add_cancel]
  case reset => exact ⟨_, (Effect.push a).exec_eq, (push_sp_and_cell (Effect.push a).exec_eq).2⟩

/-- Settles O42: RET pops the return address that CALL pushed, and its increment undoes CALL's decrement. -/
theorem retResumesAfterItsCall : Obligations.RetResumesAfterItsCall := by
  unfold Obligations.RetResumesAfterItsCall
  simp only [State.reg_seven]
  intro a s hpc
  obtain ⟨t, hcall, hsp, htop, -⟩ := exists_called a s
  refine ⟨t, hcall, fun u hsp' htop' => ⟨_, Effect.ret.exec_eq, ?_, ?_⟩⟩
  · rw [State.setPc_pc, htop', htop, BitVec.toNat_ofNat, Nat.mod_eq_of_lt (by omega)]
  · rw [State.sp_setPc, State.sp_spInc, hsp', hsp, sub_add_cancel]

end Sys2Proof.Machine
end
